-- ==== Sys2Proof/Word.lean ====
section
/-! DEFINITION. The word types of the Nano core (spec R5, R6, R20, R47): a 16-bit word and an 8-bit byte. -/

namespace Sys2Proof

/-- A 16-bit word: a general register, the pc, the immediate prefix accumulator, an ALU operand, an address or an
instruction (R5: `W` = 16, `IW` = 16, `AW` = 16). -/
abbrev Word := BitVec 16

/-- One byte of memory (R40, R47). -/
abbrev Byte := BitVec 8

end Sys2Proof
end

