-- ==== Sys2Proof/Config.lean ====
section
/-! DEFINITION. The implementation parameters of spec R5, as plain data that a state carries and no step changes, and the
free values of the model: opaque constants without a body, about which nothing can be proved. -/

namespace Sys2Proof

/-- The two kinds of word access that the memory interface charges for (R41, R42). -/
inductive AccessKind where
  | read
  | write
deriving DecidableEq, Repr

/-- One entry of the parameter `MEM_COST`: the cost of one kind of access at one address. -/
structure MemCostEntry where
  kind : AccessKind
  addr : Word
  cost : Nat
deriving DecidableEq, Repr

/-- The OPEN parameter `MEM_COST` (R5): a function from (kind, 16-bit address) to a natural number, as plain data. The first
entry for a pair gives its cost, and every other pair costs `base`. The domain is finite, so every such function can be
written so (log entry 3). -/
structure MemCost where
  base  : Nat
  table : List MemCostEntry
deriving DecidableEq, Repr

/-- The parameter `JAL_PREFIX_MODE` (R5): does JAL consume the immediate prefix? -/
inductive JalPrefixMode where
  | consume
  | ignore
deriving DecidableEq, Repr

/-- The OPEN parameters of R5, fixed for one machine. `MEM_INIT` is not here: it is the memory a state starts with
(`Machine.State.powerUp`). -/
structure Config where
  memBytes      : Nat
  memCost       : MemCost
  haltOnIllegal : Bool
  jalPrefixMode : JalPrefixMode
  maxSteps      : Nat
deriving DecidableEq, Repr

/-- The limits R5 sets: `MEM_BYTES` is even and 2 <= `MEM_BYTES` <= 65536, and `MAX_STEPS` is positive. -/
abbrev Config.wf (c : Config) : Prop :=
  2 ≤ c.memBytes ∧ c.memBytes ≤ 65536 ∧ c.memBytes % 2 = 0 ∧ 0 < c.maxSteps

/-- The values R5 suggests or gives by default; for `MAX_STEPS`, to which it gives none, 1000 (DESIGN CHOICE, log entry 2). -/
def Config.suggested : Config :=
  { memBytes := 65536, memCost := { base := 1, table := [] }, haltOnIllegal := false, jalPrefixMode := .consume,
    maxSteps := 1000 }

/-- `BRANCH_PENALTY` (R5): the extra cost of a taken branch, a return or a call. -/
def branchPenalty : Nat := 2

/-- Free value: how far the 64-bit cycle counter goes up in a step whose sum does not fit in it (R26: its overflow is "not a
defined behavior"). It depends on the old value and on the cost (log entry 4). -/
opaque Config.freeCycles : BitVec 64 → Nat → Nat

/-- Free value: the Step-Over target when the controller's walk over an IMM chain meets a read error at the given address, for
which R247 states no target (log entry 12). -/
opaque Config.freeStepOverTarget : Word → Word

end Sys2Proof
end

