-- ==== Sys2Proof/Syntax.lean ====
section
/-! DEFINITION. The instructions: one constructor per row of spec/opcode_table.json, with the fields its format has
(R62 to R66). -/

namespace Sys2Proof

/-- A general register number, 0 to 15 (R20). -/
abbrev Reg := Fin 16

/-- The 36 instructions and the two reserved rows. Every field of a format is kept, also the bits an instruction ignores
(R75), so that an instruction says which word it was. -/
inductive Instr where
  -- format R, class 0: R120 to R127
  | add (rx ry : Reg)
  | sub (rx ry : Reg)
  | adc (rx ry : Reg)
  | sbc (rx ry : Reg)
  | rsub (rx ry : Reg)
  | and (rx ry : Reg)
  | or (rx ry : Reg)
  | xor (rx ry : Reg)
  -- format I8, classes 1 to 8: R110 to R117
  | addi (rx : Reg) (imm8 : BitVec 8)
  | subi (rx : Reg) (imm8 : BitVec 8)
  | adci (rx : Reg) (imm8 : BitVec 8)
  | sbci (rx : Reg) (imm8 : BitVec 8)
  | rsubi (rx : Reg) (imm8 : BitVec 8)
  | andi (rx : Reg) (imm8 : BitVec 8)
  | ori (rx : Reg) (imm8 : BitVec 8)
  | xori (rx : Reg) (imm8 : BitVec 8)
  -- format I8, class 9: R140
  | movi (rx : Reg) (imm8 : BitVec 8)
  -- format M, classes A to D: R141 to R144
  | ldw (rx ry : Reg) (off4 : BitVec 4)
  | stw (rx ry : Reg) (off4 : BitVec 4)
  | ldb (rx ry : Reg) (off4 : BitVec 4)
  | stb (rx ry : Reg) (off4 : BitVec 4)
  -- format B, class E, cond 0 to B: R164 to R175
  | bra (disp8 : BitVec 8)
  | brn (disp8 : BitVec 8)
  | bhi (disp8 : BitVec 8)
  | bls (disp8 : BitVec 8)
  | bhs (disp8 : BitVec 8)
  | blo (disp8 : BitVec 8)
  | beq (disp8 : BitVec 8)
  | bne (disp8 : BitVec 8)
  | bgt (disp8 : BitVec 8)
  | ble (disp8 : BitVec 8)
  | bge (disp8 : BitVec 8)
  | blt (disp8 : BitVec 8)
  -- format B, class E, cond E and F: R177, R178
  | rts (ignored : BitVec 8)
  | jal (disp8 : BitVec 8)
  -- format P, class F: R190
  | imm (imm12 : BitVec 12)
  -- the reserved encodings: R128 (class 0, func 8 to 15) and R176 (class E, cond C and D)
  | reservedAlu (rx ry : Reg) (func : BitVec 4)
  | reservedBranch (cond : BitVec 4) (disp8 : BitVec 8)
deriving DecidableEq, Repr

end Sys2Proof
end

