-- ==== Sys2Proof/Machine/State.lean ====
section
/-! DEFINITION. The state of the machine as plain data, the reasons a step can end without a next state, and the state right
after reset (R20 to R31, R260). -/

namespace Sys2Proof.Machine

/-- Memory as (address, byte) pairs, in the canonical form `Memory.wf` of Machine/Ops.lean. -/
abbrev Memory := List Host.Cell

/-- The condition code register (R23): exactly four bits. `Flags.toBits` of Machine/Flags.lean gives its 4-bit value. -/
structure Flags where
  n : Bool
  c : Bool
  v : Bool
  z : Bool
deriving DecidableEq, Repr

/-- The kind of a memory fault (R232). -/
inductive FaultKind where
  | fetch
  | load
  | store
deriving DecidableEq, Repr

/-- What `fault_info` records (R27, R232): the kind of the failing access and its address. -/
structure FaultInfo where
  kind : FaultKind
  addr : Word
deriving DecidableEq, Repr

/-- The content of the output `Illegal(addr, word)` (R230). -/
structure IllegalSignal where
  addr : Word
  word : Word
deriving DecidableEq, Repr

/-- What the block puts out in one transaction (R80): the cost a step returns, the `Illegal` hook and the `MemFault` output.
A step that raises `MemFault` returns no cost (R87). -/
structure StepOut where
  cost     : Option Nat
  illegal  : Option IllegalSignal
  memFault : Option FaultInfo
deriving DecidableEq, Repr

/-- No cost and no signal: what `reset()` puts out (R260). -/
def StepOut.none : StepOut := { cost := Option.none, illegal := Option.none, memFault := Option.none }

/-- The state of the block (R20 to R27), of its debug controller (R28, R243) and of its memory (R40), with the outputs of
the last transaction (R80) and the parameters of R5. -/
structure State where
  /-- `x[0]` to `x[15]` (R20). -/
  regs       : Vector Word 16
  /-- The byte address of the next instruction, always even (R22). -/
  pc         : Word
  /-- The flags N, C, V, Z (R23). -/
  ccr        : Flags
  /-- `prefix`, the immediate prefix accumulator (R25). -/
  immPrefix  : Word
  /-- The cost counter (R26). -/
  cycles     : BitVec 64
  /-- The fault latch (R27). -/
  faulted    : Bool
  /-- `fault_info` (R27). -/
  faultInfo  : Option FaultInfo
  /-- The outputs of the last transaction (R80); no instruction reads them (log entry 5). -/
  out        : StepOut
  /-- The controller's breakpoint (R28). -/
  breakpoint : Option Word
  /-- The controller's run/stop signal (R243): a Step-Over or Step-Out run is in progress. -/
  running    : Bool
  /-- Memory behind the interface of R41 and R42. -/
  mem        : Memory
  /-- The parameters of R5. -/
  cfg        : Config
deriving DecidableEq, Repr

/-- Why a step stops the machine. -/
inductive Fault where
  /-- Raised by `step` when `faulted = 1` (R81): the block takes no step until `reset()`. Safe: the spec gives no next
  state. -/
  | stuckUntilReset
deriving DecidableEq, Repr

/-- Why an instruction has no meaning here. -/
inductive Refusal where
  /-- Raised by an arm of `exec` whose instruction is not modelled yet; no arm of this model is one. Safe. -/
  | notModelled (mnemonic : String)
deriving DecidableEq, Repr

/-- What the fetch and decode part of a step gives (R81 to R83). -/
inductive Fetched where
  /-- The decoded instruction at the pc. -/
  | run (i : Instr)
  /-- The fetch raised a memory fault, which is the whole step: the state with the latch set. -/
  | latched (s : State)
  /-- The block is faulted and takes no step. -/
  | stuck
deriving DecidableEq, Repr

/-- The state after power-up and reset with the given parameters and memory contents `MEM_INIT` (R31, R260 to R262). -/
def State.powerUp (cfg : Config) (memInit : Memory) : State :=
  { regs := Vector.replicate 16 0x0000#16, pc := 0x0000#16, ccr := { n := false, c := false, v := false, z := false },
    immPrefix := 0x0000#16, cycles := 0, faulted := false, faultInfo := none, out := StepOut.none, breakpoint := none,
    running := false, mem := memInit, cfg := cfg }

/-- The machine right after reset, with the suggested parameters of R5 and nothing in memory (log entries 1 and 2). -/
def State.reset : State := State.powerUp Config.suggested []

end Sys2Proof.Machine
end

