-- ==== Sys2Proof/Machine/Flags.lean ====
section
/-! DEFINITION. The ALU engine and the flag unit (R100 to R106), the condition evaluator (R160) and the packing of ccr (R23). -/

namespace Sys2Proof.Machine

/-! ## ALU engine -/

/-- The eight operations of the ALU engine (R100). -/
inductive AluOp where
  | add
  | sub
  | adc
  | sbc
  | rsub
  | and
  | or
  | xor
deriving DecidableEq, Repr

/-- The add primitive (R101, R102): the sum mod 2^16, and the carry found by the unsigned wraparound comparison. -/
def addPrimitive (a b : Word) (ci : Bool) : Word × Bool :=
  let result := a + b + (BitVec.ofBool ci).setWidth 16
  (result, if ci then result.ule a else result.ult a)

/-- SUB and SBC (R103): `a + ~b + !ci` through the add primitive, with the carry-out inverted, so that C = 1 is a borrow. -/
def subPrimitive (a b : Word) (ci : Bool) : Word × Bool :=
  let sum := addPrimitive a (~~~b) (!ci)
  (sum.1, !sum.2)

/-- `apply(op, a, b, carry_in) -> (result, carry_out)` (R100 to R106). -/
def AluOp.apply (op : AluOp) (a b : Word) (carryIn : Bool) : Word × Bool :=
  match op with
  | .add => addPrimitive a b false
  | .sub => subPrimitive a b false
  | .adc => addPrimitive a b carryIn
  | .sbc => subPrimitive a b carryIn
  | .rsub => (b - a, carryIn)
  | .and => (a &&& b, carryIn)
  | .or => (a ||| b, carryIn)
  | .xor => (a ^^^ b, carryIn)

/-- The operand the V formula takes for b (R104): `~b` for SUB and SBC, b otherwise. -/
def AluOp.overflowOperand (op : AluOp) (b : Word) : Word :=
  match op with
  | .sub => ~~~b
  | .sbc => ~~~b
  | .add => b
  | .adc => b
  | .rsub => b
  | .and => b
  | .or => b
  | .xor => b

/-- The flag unit (R104), which writes all four flags after every operation. -/
def flagUnit (op : AluOp) (a b result : Word) (carryOut : Bool) : Flags :=
  { n := result.msb
    c := carryOut
    v := (a ^^^ result).msb && (op.overflowOperand b ^^^ result).msb
    z := result == 0x0000#16 }

/-! ## Condition evaluator -/

/-- The branch conditions that have a meaning (R160): the selectors but C and D. -/
inductive Cond where
  | always
  | never
  | higher
  | lowerOrSame
  | higherOrSame
  | lower
  | equal
  | notEqual
  | greaterThan
  | lessOrEqual
  | greaterOrEqual
  | lessThan
  | returnFromSubroutine
  | jumpAndLink
deriving DecidableEq, Repr

/-- `taken(cond, ccr)` (R160). -/
def Cond.taken (cond : Cond) (f : Flags) : Bool :=
  match cond with
  | .always => true
  | .never => false
  | .higher => !f.c && !f.z
  | .lowerOrSame => f.c || f.z
  | .higherOrSame => !f.c
  | .lower => f.c
  | .equal => f.z
  | .notEqual => !f.z
  | .greaterThan => !f.z && !(f.n ^^ f.v)
  | .lessOrEqual => f.z || (f.n ^^ f.v)
  | .greaterOrEqual => !(f.n ^^ f.v)
  | .lessThan => f.n ^^ f.v
  | .returnFromSubroutine => true
  | .jumpAndLink => true

/-! ## ccr as a number -/

/-- The 4-bit value of ccr (R23): N = bit 3, C = bit 2, V = bit 1, Z = bit 0. Only the snapshot shows it (R29). -/
def Flags.toBits (f : Flags) : BitVec 4 :=
  BitVec.ofBool f.n ++ BitVec.ofBool f.c ++ BitVec.ofBool f.v ++ BitVec.ofBool f.z

end Sys2Proof.Machine
end

