-- ==== Sys2Proof/WellFormed.lean ====
section
/-! DEFINITION. When a term of `Instr` is an instruction of the machine: its fields fit its row of the opcode table. The types
of the fields bound every field but two: the func of a reserved ALU word and the cond of a reserved branch word (R74). -/

namespace Sys2Proof

/-- R74 (a): the func values no ALU operation has are those with bit 3 set. -/
def reservedFunc (func : BitVec 4) : Bool := func.getLsbD 3

/-- R74 (b): the branch selectors without a meaning are C and D. -/
def reservedCond (cond : BitVec 4) : Bool := cond == 0xC#4 || cond == 0xD#4

/-- The term stands for a word of the machine. -/
def Instr.wf : Instr → Bool
  | .add _ _ => true
  | .sub _ _ => true
  | .adc _ _ => true
  | .sbc _ _ => true
  | .rsub _ _ => true
  | .and _ _ => true
  | .or _ _ => true
  | .xor _ _ => true
  | .addi _ _ => true
  | .subi _ _ => true
  | .adci _ _ => true
  | .sbci _ _ => true
  | .rsubi _ _ => true
  | .andi _ _ => true
  | .ori _ _ => true
  | .xori _ _ => true
  | .movi _ _ => true
  | .ldw _ _ _ => true
  | .stw _ _ _ => true
  | .ldb _ _ _ => true
  | .stb _ _ _ => true
  | .bra _ => true
  | .brn _ => true
  | .bhi _ => true
  | .bls _ => true
  | .bhs _ => true
  | .blo _ => true
  | .beq _ => true
  | .bne _ => true
  | .bgt _ => true
  | .ble _ => true
  | .bge _ => true
  | .blt _ => true
  | .rts _ => true
  | .jal _ => true
  | .imm _ => true
  | .reservedAlu _ _ func => reservedFunc func
  | .reservedBranch cond _ => reservedCond cond

end Sys2Proof
end

