-- ==== Sys2Proof/Decode.lean ====
section
/-! DEFINITION. The decoder, total on the 65536 words and on any bytes, the encoder after it, the opcode table as masks and
patterns, and the host's entry `decodeTableWord`. Instruction words are big-endian in memory (R47). -/

namespace Sys2Proof

/-! ## Fields of an instruction word (R61, R83) -/

/-- `cls = w[15:12]`. -/
def fieldCls (w : Word) : BitVec 4 := w.extractLsb' 12 4

/-- `cond = w[11:8]`, which is also the field of Rx. -/
def fieldCond (w : Word) : BitVec 4 := w.extractLsb' 8 4

/-- `rx = w[11:8]`. -/
def fieldRx (w : Word) : Reg := (w.extractLsb' 8 4).toFin

/-- `ry = w[7:4]`. -/
def fieldRy (w : Word) : Reg := (w.extractLsb' 4 4).toFin

/-- `lo = w[3:0]`: func, or off4. -/
def fieldLo (w : Word) : BitVec 4 := w.extractLsb' 0 4

/-- `imm8 = w[7:0]`, which is also disp8. -/
def fieldImm8 (w : Word) : BitVec 8 := w.extractLsb' 0 8

/-- `imm12 = w[11:0]`. -/
def fieldImm12 (w : Word) : BitVec 12 := w.extractLsb' 0 12

/-! ## Decoding -/

/-- Class 0 (R68): func 0 to 7 select an ALU operation, func 8 to 15 are reserved. -/
def decodeAluRegister (rx ry : Reg) (func : BitVec 4) : Instr :=
  match func.toNat with
  | 0 => .add rx ry
  | 1 => .sub rx ry
  | 2 => .adc rx ry
  | 3 => .sbc rx ry
  | 4 => .rsub rx ry
  | 5 => .and rx ry
  | 6 => .or rx ry
  | 7 => .xor rx ry
  | _ => .reservedAlu rx ry func

/-- Class E (R69): the branch selectors, with C and D reserved. -/
def decodeBranch (cond : BitVec 4) (disp8 : BitVec 8) : Instr :=
  match cond.toNat with
  | 0 => .bra disp8
  | 1 => .brn disp8
  | 2 => .bhi disp8
  | 3 => .bls disp8
  | 4 => .bhs disp8
  | 5 => .blo disp8
  | 6 => .beq disp8
  | 7 => .bne disp8
  | 8 => .bgt disp8
  | 9 => .ble disp8
  | 10 => .bge disp8
  | 11 => .blt disp8
  | 14 => .rts disp8
  | 15 => .jal disp8
  | _ => .reservedBranch cond disp8

/-- The one decode function (R67, R76, R83), which the dispatcher and the disassembler share (R211). -/
def decodeWord (w : Word) : Instr :=
  match (fieldCls w).toNat with
  | 0 => decodeAluRegister (fieldRx w) (fieldRy w) (fieldLo w)
  | 1 => .addi (fieldRx w) (fieldImm8 w)
  | 2 => .subi (fieldRx w) (fieldImm8 w)
  | 3 => .adci (fieldRx w) (fieldImm8 w)
  | 4 => .sbci (fieldRx w) (fieldImm8 w)
  | 5 => .rsubi (fieldRx w) (fieldImm8 w)
  | 6 => .andi (fieldRx w) (fieldImm8 w)
  | 7 => .ori (fieldRx w) (fieldImm8 w)
  | 8 => .xori (fieldRx w) (fieldImm8 w)
  | 9 => .movi (fieldRx w) (fieldImm8 w)
  | 10 => .ldw (fieldRx w) (fieldRy w) (fieldLo w)
  | 11 => .stw (fieldRx w) (fieldRy w) (fieldLo w)
  | 12 => .ldb (fieldRx w) (fieldRy w) (fieldLo w)
  | 13 => .stb (fieldRx w) (fieldRy w) (fieldLo w)
  | 14 => decodeBranch (fieldCond w) (fieldImm8 w)
  | _ => .imm (fieldImm12 w)

/-- Why bytes hold no instruction: fewer than two are left (R60: every instruction is one 16-bit word). -/
inductive DecodeError where
  | truncated
deriving DecidableEq, Repr

/-- The word whose high byte lies at the lower, even address (R47). -/
def wordOfBytes (hi lo : Byte) : Word := hi ++ lo

/-- `w[15:8]`, the byte at the even address (R47). -/
def highByte (w : Word) : Byte := w.extractLsb' 8 8

/-- `w[7:0]`, the byte at the odd address (R47). -/
def lowByte (w : Word) : Byte := w.extractLsb' 0 8

/-- Decode the instruction at the front of a list of bytes and give the rest. -/
def decode : List Byte → Except DecodeError (Instr × List Byte)
  | hi :: lo :: rest => .ok (decodeWord (wordOfBytes hi lo), rest)
  | [_] => .error .truncated
  | [] => .error .truncated

/-! ## Encoding -/

/-- Format R (R62) and format M (R64): class, Rx, Ry and a low nibble. -/
def packRRN (cls : BitVec 4) (rx ry : Reg) (lo : BitVec 4) : Word :=
  cls ++ BitVec.ofFin (w := 4) rx ++ BitVec.ofFin (w := 4) ry ++ lo

/-- Format I8 (R63): class, Rx and imm8. -/
def packRI (cls : BitVec 4) (rx : Reg) (imm8 : BitVec 8) : Word := cls ++ BitVec.ofFin (w := 4) rx ++ imm8

/-- Format B (R65): class E, cond and disp8. -/
def packB (cond : BitVec 4) (disp8 : BitVec 8) : Word := 0xE#4 ++ cond ++ disp8

/-- Format P (R66): class F and imm12. -/
def packP (imm12 : BitVec 12) : Word := 0xF#4 ++ imm12

/-- The word of an instruction. -/
def encode : Instr → Word
  | .add rx ry => packRRN 0x0#4 rx ry 0x0#4
  | .sub rx ry => packRRN 0x0#4 rx ry 0x1#4
  | .adc rx ry => packRRN 0x0#4 rx ry 0x2#4
  | .sbc rx ry => packRRN 0x0#4 rx ry 0x3#4
  | .rsub rx ry => packRRN 0x0#4 rx ry 0x4#4
  | .and rx ry => packRRN 0x0#4 rx ry 0x5#4
  | .or rx ry => packRRN 0x0#4 rx ry 0x6#4
  | .xor rx ry => packRRN 0x0#4 rx ry 0x7#4
  | .addi rx imm8 => packRI 0x1#4 rx imm8
  | .subi rx imm8 => packRI 0x2#4 rx imm8
  | .adci rx imm8 => packRI 0x3#4 rx imm8
  | .sbci rx imm8 => packRI 0x4#4 rx imm8
  | .rsubi rx imm8 => packRI 0x5#4 rx imm8
  | .andi rx imm8 => packRI 0x6#4 rx imm8
  | .ori rx imm8 => packRI 0x7#4 rx imm8
  | .xori rx imm8 => packRI 0x8#4 rx imm8
  | .movi rx imm8 => packRI 0x9#4 rx imm8
  | .ldw rx ry off4 => packRRN 0xA#4 rx ry off4
  | .stw rx ry off4 => packRRN 0xB#4 rx ry off4
  | .ldb rx ry off4 => packRRN 0xC#4 rx ry off4
  | .stb rx ry off4 => packRRN 0xD#4 rx ry off4
  | .bra disp8 => packB 0x0#4 disp8
  | .brn disp8 => packB 0x1#4 disp8
  | .bhi disp8 => packB 0x2#4 disp8
  | .bls disp8 => packB 0x3#4 disp8
  | .bhs disp8 => packB 0x4#4 disp8
  | .blo disp8 => packB 0x5#4 disp8
  | .beq disp8 => packB 0x6#4 disp8
  | .bne disp8 => packB 0x7#4 disp8
  | .bgt disp8 => packB 0x8#4 disp8
  | .ble disp8 => packB 0x9#4 disp8
  | .bge disp8 => packB 0xA#4 disp8
  | .blt disp8 => packB 0xB#4 disp8
  | .rts ignored => packB 0xE#4 ignored
  | .jal disp8 => packB 0xF#4 disp8
  | .imm imm12 => packP imm12
  | .reservedAlu rx ry func => packRRN 0x0#4 rx ry func
  | .reservedBranch cond disp8 => packB cond disp8

/-- The bytes of an instruction, the high byte first (R47). -/
def encodeBytes (i : Instr) : List Byte := [highByte (encode i), lowByte (encode i)]

/-! ## The opcode table (R76) -/

/-- One row of spec/opcode_table.json: the words `w` with `w &&& mask = pattern`. -/
structure OpcodeRow where
  mnemonic : String
  pattern  : Word
  mask     : Word
deriving DecidableEq, Repr

/-- The row holds the word. -/
def OpcodeRow.holds (row : OpcodeRow) (w : Word) : Bool := w &&& row.mask == row.pattern

/-- The rows of class 0. -/
def aluRows : List OpcodeRow :=
  [ ⟨"ADD", 0x0000#16, 0xF00F#16⟩,
    ⟨"SUB", 0x0001#16, 0xF00F#16⟩,
    ⟨"ADC", 0x0002#16, 0xF00F#16⟩,
    ⟨"SBC", 0x0003#16, 0xF00F#16⟩,
    ⟨"RSUB", 0x0004#16, 0xF00F#16⟩,
    ⟨"AND", 0x0005#16, 0xF00F#16⟩,
    ⟨"OR", 0x0006#16, 0xF00F#16⟩,
    ⟨"XOR", 0x0007#16, 0xF00F#16⟩,
    ⟨"RESERVED_ALU", 0x0008#16, 0xF008#16⟩ ]

/-- The rows of classes 1 to 9. -/
def immediateRows : List OpcodeRow :=
  [ ⟨"ADDI", 0x1000#16, 0xF000#16⟩,
    ⟨"SUBI", 0x2000#16, 0xF000#16⟩,
    ⟨"ADCI", 0x3000#16, 0xF000#16⟩,
    ⟨"SBCI", 0x4000#16, 0xF000#16⟩,
    ⟨"RSUBI", 0x5000#16, 0xF000#16⟩,
    ⟨"ANDI", 0x6000#16, 0xF000#16⟩,
    ⟨"ORI", 0x7000#16, 0xF000#16⟩,
    ⟨"XORI", 0x8000#16, 0xF000#16⟩,
    ⟨"MOVI", 0x9000#16, 0xF000#16⟩ ]

/-- The rows of classes A to D. -/
def memoryRows : List OpcodeRow :=
  [ ⟨"LDW", 0xA000#16, 0xF000#16⟩,
    ⟨"STW", 0xB000#16, 0xF000#16⟩,
    ⟨"LDB", 0xC000#16, 0xF000#16⟩,
    ⟨"STB", 0xD000#16, 0xF000#16⟩ ]

/-- The rows of class E. -/
def branchRows : List OpcodeRow :=
  [ ⟨"BRA", 0xE000#16, 0xFF00#16⟩,
    ⟨"BRN", 0xE100#16, 0xFF00#16⟩,
    ⟨"BHI", 0xE200#16, 0xFF00#16⟩,
    ⟨"BLS", 0xE300#16, 0xFF00#16⟩,
    ⟨"BHS", 0xE400#16, 0xFF00#16⟩,
    ⟨"BLO", 0xE500#16, 0xFF00#16⟩,
    ⟨"BEQ", 0xE600#16, 0xFF00#16⟩,
    ⟨"BNE", 0xE700#16, 0xFF00#16⟩,
    ⟨"BGT", 0xE800#16, 0xFF00#16⟩,
    ⟨"BLE", 0xE900#16, 0xFF00#16⟩,
    ⟨"BGE", 0xEA00#16, 0xFF00#16⟩,
    ⟨"BLT", 0xEB00#16, 0xFF00#16⟩,
    ⟨"RTS", 0xEE00#16, 0xFF00#16⟩,
    ⟨"JAL", 0xEF00#16, 0xFF00#16⟩,
    ⟨"RESERVED_BRANCH", 0xEC00#16, 0xFE00#16⟩ ]

/-- The row of class F. -/
def prefixRows : List OpcodeRow :=
  [ ⟨"IMM", 0xF000#16, 0xF000#16⟩ ]

/-- All 38 rows. -/
def opcodeTable : List OpcodeRow := aluRows ++ immediateRows ++ memoryRows ++ branchRows ++ prefixRows

/-- The mnemonic of an instruction's row. -/
def Instr.mnemonic : Instr → String
  | .add _ _ => "ADD"
  | .sub _ _ => "SUB"
  | .adc _ _ => "ADC"
  | .sbc _ _ => "SBC"
  | .rsub _ _ => "RSUB"
  | .and _ _ => "AND"
  | .or _ _ => "OR"
  | .xor _ _ => "XOR"
  | .addi _ _ => "ADDI"
  | .subi _ _ => "SUBI"
  | .adci _ _ => "ADCI"
  | .sbci _ _ => "SBCI"
  | .rsubi _ _ => "RSUBI"
  | .andi _ _ => "ANDI"
  | .ori _ _ => "ORI"
  | .xori _ _ => "XORI"
  | .movi _ _ => "MOVI"
  | .ldw _ _ _ => "LDW"
  | .stw _ _ _ => "STW"
  | .ldb _ _ _ => "LDB"
  | .stb _ _ _ => "STB"
  | .bra _ => "BRA"
  | .brn _ => "BRN"
  | .bhi _ => "BHI"
  | .bls _ => "BLS"
  | .bhs _ => "BHS"
  | .blo _ => "BLO"
  | .beq _ => "BEQ"
  | .bne _ => "BNE"
  | .bgt _ => "BGT"
  | .ble _ => "BLE"
  | .bge _ => "BGE"
  | .blt _ => "BLT"
  | .rts _ => "RTS"
  | .jal _ => "JAL"
  | .imm _ => "IMM"
  | .reservedAlu _ _ _ => "RESERVED_ALU"
  | .reservedBranch _ _ => "RESERVED_BRANCH"

/-! ## The host's entry -/

/-- The word of a table instruction: its first `nbits` bits, every bit above them 0. -/
def tableWord (nbits w : Nat) : Word := BitVec.ofNat 16 (w % 2 ^ nbits)

/-- The instruction the decoder reads from a table word, laid out in memory as the hardware stores it. -/
def decodeTableWord (nbits w : Nat) : Option Instr :=
  match decode [highByte (tableWord nbits w), lowByte (tableWord nbits w)] with
  | .ok (i, _) => some i
  | .error _ => none

end Sys2Proof
end

