-- ==== Sys2Proof/Machine/Ops.lean ====
section
/-! DEFINITION. The named operations over memory and registers: the memory interface (R41 to R47, R56), register access (R20),
the end of a step (R84 to R86), the two exceptional events (R230, R232), reset (R260), and fetch with decode (R81 to R83). -/

namespace Sys2Proof.Machine

/-! ## Memory as a canonical list -/

/-- What an address that the list does not name reads as: 0 (DESIGN CHOICE, log entry 1; the spec leaves `MEM_INIT` open). -/
def Memory.unlisted (_addr : Nat) : Byte := 0x00#8

/-- The canonical form: addresses strictly rising, and no entry equal to what an unlisted address reads as. -/
abbrev Memory.wf (m : Memory) : Prop :=
  m.Pairwise (fun p q => p.1 < q.1) ∧ ∀ cell ∈ m, cell.2 ≠ Memory.unlisted cell.1

/-- Every listed address is below the bound. -/
abbrev Memory.below (m : Memory) (bound : Nat) : Prop := ∀ cell ∈ m, cell.1 < bound

/-- Read one byte. -/
def Memory.get : Memory → Nat → Byte
  | [], addr => Memory.unlisted addr
  | (k, v) :: m, addr => if addr = k then v else Memory.get m addr

/-- Put an entry in front, unless it says what an unlisted address reads as. -/
def Memory.cons (addr : Nat) (v : Byte) (m : Memory) : Memory :=
  if v = Memory.unlisted addr then m else (addr, v) :: m

/-- Write one byte, keeping the canonical form. -/
def Memory.set : Memory → Nat → Byte → Memory
  | [], addr, v => Memory.cons addr v []
  | (k, u) :: m, addr, v =>
    if addr < k then Memory.cons addr v ((k, u) :: m)
    else if addr = k then Memory.cons addr v m
    else (k, u) :: Memory.set m addr v

/-- One byte of the state's memory. -/
def State.byteAt (s : State) (addr : Nat) : Byte := Memory.get s.mem addr

/-- Write one byte of the state's memory. -/
def State.setByte (s : State) (addr : Nat) (v : Byte) : State := { s with mem := Memory.set s.mem addr v }

/-- The word whose high byte is at the address (R47). -/
def State.wordAt (s : State) (a : Word) : Word := wordOfBytes (s.byteAt a.toNat) (s.byteAt (a.toNat + 1))

/-- Write the word whose high byte is at the address (R47). -/
def State.setWordAt (s : State) (a v : Word) : State :=
  (s.setByte a.toNat (highByte v)).setByte (a.toNat + 1) (lowByte v)

/-! ## The memory interface -/

/-- `MEM_COST(kind, a)` (R5): the first entry of the table for the pair, else the base cost. -/
def memCost (c : MemCost) (kind : AccessKind) (a : Word) : Nat :=
  match c.table.find? (fun e => e.kind == kind && e.addr == a) with
  | some e => e.cost
  | none => c.base

/-- The error condition of a word access (R41): `a[0] = 1` or `a + 2 > MEM_BYTES`. -/
def State.wordError (s : State) (a : Word) : Bool := a.getLsbD 0 || decide (s.cfg.memBytes < a.toNat + 2)

/-- `read_word(a) -> (v16, cost) | error` (R41). -/
def State.readWord (s : State) (a : Word) : Option (Word × Nat) :=
  if s.wordError a then none else some (s.wordAt a, memCost s.cfg.memCost .read a)

/-- `write_word(a, v16) -> cost | error` (R42), with the state after it. -/
def State.writeWord (s : State) (a v : Word) : Option (State × Nat) :=
  if s.wordError a then none else some (s.setWordAt a v, memCost s.cfg.memCost .write a)

/-- `a & 0xFFFE`: the even address of the word that holds the byte at `a` (R43). -/
def evenAddr (a : Word) : Word := a &&& 0xFFFE#16

/-- The byte of a word that the parity of the address selects (R43): the even byte is the high byte. -/
def selectByte (a w : Word) : Byte := if a.getLsbD 0 then lowByte w else highByte w

/-- The word with the byte that the parity of the address selects replaced (R44). -/
def mergeByte (a w : Word) (b : Byte) : Word :=
  if a.getLsbD 0 then wordOfBytes (highByte w) b else wordOfBytes b (lowByte w)

/-- `read_byte(a)` (R43): one word read. -/
def State.readByte (s : State) (a : Word) : Option (Byte × Nat) :=
  match s.readWord (evenAddr a) with
  | some (w, c) => some (selectByte a w, c)
  | none => none

/-- `write_byte(a, b8)` (R44): a word read and a word write of the merged word. -/
def State.writeByte (s : State) (a : Word) (b : Byte) : Option (State × Nat) :=
  match s.readWord (evenAddr a) with
  | some (w, c1) =>
    match s.writeWord (evenAddr a) (mergeByte a w b) with
    | some (s', c2) => some (s', c1 + c2)
    | none => none
  | none => none

/-- `read_long(a)` (R45): two word reads, the high word first. No instruction uses it (log entry 9). -/
def State.readLong (s : State) (a : Word) : Option (BitVec 32 × Nat) :=
  match s.readWord a, s.readWord (a + 2#16) with
  | some (hi, c1), some (lo, c2) => some (hi ++ lo, c1 + c2)
  | some _, none => none
  | none, some _ => none
  | none, none => none

/-- `write_long(a, v32)` (R45): two word writes, the high word first; with the state after it also where the second write
errors. No instruction uses it (log entry 9). -/
def State.writeLong (s : State) (a : Word) (v : BitVec 32) : State × Option Nat :=
  match s.writeWord a (v.extractLsb' 16 16) with
  | none => (s, none)
  | some (s1, c1) =>
    match s1.writeWord (a + 2#16) (v.extractLsb' 0 16) with
    | none => (s1, none)
    | some (s2, c2) => (s2, some (c1 + c2))

/-- Write consecutive bytes from an address on. -/
def State.setBytes (s : State) (addr : Nat) : List Byte → State
  | [] => s
  | b :: bs => (s.setByte addr b).setBytes (addr + 1) bs

/-- `copy_bytes(addr, buffer, length)` (R56, R264): the host loader's bulk write between steps. None where the buffer is
shorter than the length or the bytes do not fit in memory, for which the spec states nothing (log entry 10). -/
def State.copyBytes (s : State) (addr : Nat) (buffer : List Byte) (length : Nat) : Option State :=
  if length ≤ buffer.length ∧ addr + length ≤ s.cfg.memBytes then some (s.setBytes addr (buffer.take length)) else none

/-! ## Registers -/

/-- `x[r]` (R20). -/
def State.reg (s : State) (r : Reg) : Word := s.regs[r.val]

/-- `x[r] <- v` (R20). -/
def State.setReg (s : State) (r : Reg) (v : Word) : State := { s with regs := s.regs.set r.val v }

/-- `ccr <- f` (R104). -/
def State.setCcr (s : State) (f : Flags) : State := { s with ccr := f }

/-- The link register (R20). -/
def linkReg : Reg := 15

/-! ## The end of a step -/

/-- `npc`, the address after the instruction (R82). -/
def State.npc (s : State) : Word := s.pc + 2#16

/-- `cycles + cost` (R86). Where the sum does not fit in 64 bits the counter still goes up, by a free amount (R26, log entry 4). -/
def addCycles (cycles : BitVec 64) (cost : Nat) : BitVec 64 :=
  if cycles.toNat + cost < 2 ^ 64 then cycles + BitVec.ofNat 64 cost
  else BitVec.ofNat 64 (cycles.toNat + Config.freeCycles cycles cost % (2 ^ 64 - cycles.toNat))

/-- `cf`, the access cost of the fetch at the pc (R82, R86). -/
def State.fetchCost (s : State) : Nat := memCost s.cfg.memCost .read s.pc

/-- The cost of the step (R86): `cf + cd + (taken ? 2 : 0)`. -/
def State.stepCost (s : State) (dataCost : Nat) (taken : Bool) : Nat :=
  s.fetchCost + dataCost + (if taken then branchPenalty else 0)

/-- The end of every step that raises no memory fault (R84 to R87): the new pc and prefix, the cost added to `cycles` and
returned, and the `Illegal` output. It is applied before the pc changes. -/
def State.retire (s : State) (pc' newPrefix : Word) (dataCost : Nat) (taken : Bool) (illegal : Option IllegalSignal) : State :=
  { s with
    pc := pc'
    immPrefix := newPrefix
    cycles := addCycles s.cycles (s.stepCost dataCost taken)
    out := { cost := some (s.stepCost dataCost taken), illegal := illegal, memFault := none } }

/-! ## The exceptional events -/

/-- The code of a fault kind (R232). -/
def FaultKind.code : FaultKind → Nat
  | .fetch => 0
  | .load => 1
  | .store => 2

/-- `raise MemFault(kind, addr)` (R232, R88): the latch and `fault_info` are set and the output is signalled; nothing else
changes. It is taken in the state from before the step. There is no vector, and only `reset()` leads on (R234, R235). -/
def State.raiseMemFault (s : State) (kind : FaultKind) (a : Word) : State :=
  { s with
    faulted := true
    faultInfo := some { kind := kind, addr := a }
    out := { cost := none, illegal := none, memFault := some { kind := kind, addr := a } } }

/-- The step of a reserved encoding (R90, R230): a no-op that signals `Illegal(pc, w)`. -/
def State.illegalStep (s : State) (w : Word) : State :=
  s.retire s.npc 0x0000#16 0 false (some { addr := s.pc, word := w })

/-- `reset()` (R260): the block's state and the controller's to the values of R31; memory and the parameters stay. It is the
only way out of a memory fault (R263). -/
def State.doReset (s : State) : State := State.powerUp s.cfg s.mem

/-! ## Fetch and decode -/

/-- R81 to R83: no step while faulted; read the word at the pc, or raise the fetch fault; decode the word. -/
def State.fetchInstr (s : State) : Fetched :=
  if s.faulted then .stuck
  else
    match s.readWord s.pc with
    | some (w, _) => .run (decodeWord w)
    | none => .latched (s.raiseMemFault .fetch s.pc)

/-- The host's load of one instruction word at the pc (R56, R264): the word stored there, nothing else changed (log entry 11). -/
def State.placeWord (s : State) (w : Word) : State := s.setWordAt s.pc w

end Sys2Proof.Machine
end

