-- ==== Sys2Proof/Machine/Operands.lean ====
section
/-! DEFINITION. Every operand form: prefixed immediates (R70, R190), effective addresses (R71) and branch, return and call
targets (R72, R177, R178). -/

namespace Sys2Proof.Machine

/-- The operand of ALU-immediate and MOVI (R70): `B = ((prefix << 8) | zext(imm8)) mod 2^16`. -/
def immOperand (p : Word) (imm8 : BitVec 8) : Word := (p <<< 8) ||| imm8.setWidth 16

/-- The prefix an IMM step leaves (R73, R190): `((p << 12) | zext(imm12)) mod 2^16`. -/
def accumulatePrefix (p : Word) (imm12 : BitVec 12) : Word := (p <<< 12) ||| imm12.setWidth 16

/-- The effective address of LDW and STW (R71): the base plus the offset scaled by 2. -/
def State.eaWord (s : State) (ry : Reg) (off4 : BitVec 4) : Word := s.reg ry + 2#16 * off4.setWidth 16

/-- The effective address of LDB and STB (R71): the base plus the offset. -/
def State.eaByte (s : State) (ry : Reg) (off4 : BitVec 4) : Word := s.reg ry + off4.setWidth 16

/-- A displacement of words relative to the address after the instruction (R72, R178). -/
def wordTarget (npc off : Word) : Word := npc + 2#16 * off

/-- The target of a branch (R72). -/
def branchTarget (npc : Word) (disp8 : BitVec 8) : Word := wordTarget npc (disp8.signExtend 16)

/-- The target of RTS (R177): `x[15] & 0xFFFE`. -/
def returnTarget (link : Word) : Word := link &&& 0xFFFE#16

/-- The offset of JAL (R178): in `consume` mode a prefix that is not 0 gives its high part. -/
def jalOffset (mode : JalPrefixMode) (p : Word) (disp8 : BitVec 8) : Word :=
  match mode with
  | .consume => if p = 0x0000#16 then disp8.signExtend 16 else immOperand p disp8
  | .ignore => disp8.signExtend 16

/-- The target of JAL (R178). -/
def State.jalTarget (s : State) (disp8 : BitVec 8) : Word :=
  wordTarget s.npc (jalOffset s.cfg.jalPrefixMode s.immPrefix disp8)

end Sys2Proof.Machine
end

