-- ==== Sys2Proof/Machine/AluRegister.lean ====
section
/-! DEFINITION. The shared operation of the ALU instructions and the ALU-register instructions of class 0 (R120 to R127). -/

namespace Sys2Proof.Machine

/-- The result of a step of the machine. -/
abbrev StepResult := Host.Outcome State Fault Refusal

/-- One ALU instruction (R100, R104): apply the engine to `x[rx]` and `b`, write the result to `x[rx]` and all four flags, and
end the step at `npc` with the prefix cleared. -/
def aluStep (op : AluOp) (rx : Reg) (b : Word) (carryIn : Bool) (s : State) : StepResult :=
  let a := s.reg rx
  let rc := op.apply a b carryIn
  .next (((s.setReg rx rc.1).setCcr (flagUnit op a b rc.1 rc.2)).retire s.npc 0x0000#16 0 false none)

/-- An ALU-register instruction: `B = x[ry]`, and the carry-in is C from before the step (R107). -/
def aluRegister (op : AluOp) (rx ry : Reg) (s : State) : StepResult := aluStep op rx (s.reg ry) s.ccr.c s

/-- ADD (R120): `x[rx] <- x[rx] + x[ry]`. -/
def execAdd (rx ry : Reg) (s : State) : StepResult := aluRegister .add rx ry s

/-- SUB (R121): `x[rx] <- x[rx] - x[ry]`. -/
def execSub (rx ry : Reg) (s : State) : StepResult := aluRegister .sub rx ry s

/-- ADC (R122): `x[rx] <- x[rx] + x[ry] + C`. -/
def execAdc (rx ry : Reg) (s : State) : StepResult := aluRegister .adc rx ry s

/-- SBC (R123): `x[rx] <- x[rx] - x[ry] - C`. -/
def execSbc (rx ry : Reg) (s : State) : StepResult := aluRegister .sbc rx ry s

/-- RSUB (R124): `x[rx] <- x[ry] - x[rx]`. -/
def execRsub (rx ry : Reg) (s : State) : StepResult := aluRegister .rsub rx ry s

/-- AND (R125): `x[rx] <- x[rx] & x[ry]`. -/
def execAnd (rx ry : Reg) (s : State) : StepResult := aluRegister .and rx ry s

/-- OR (R126): `x[rx] <- x[rx] | x[ry]`. -/
def execOr (rx ry : Reg) (s : State) : StepResult := aluRegister .or rx ry s

/-- XOR (R127): `x[rx] <- x[rx] ^ x[ry]`. -/
def execXor (rx ry : Reg) (s : State) : StepResult := aluRegister .xor rx ry s

end Sys2Proof.Machine
end

