-- ==== Sys2Proof/Machine/AluImmediate.lean ====
section
/-! DEFINITION. The ALU-immediate instructions of classes 1 to 8 (R110 to R117). -/

namespace Sys2Proof.Machine

/-- An ALU-immediate instruction: `B` is the prefixed immediate (R70). Where the form clears C before the engine reads it, the
carry-in is 0, otherwise it is C from before the step (R107). -/
def aluImmediate (op : AluOp) (clearsCarry : Bool) (rx : Reg) (imm8 : BitVec 8) (s : State) : StepResult :=
  aluStep op rx (immOperand s.immPrefix imm8) (if clearsCarry then false else s.ccr.c) s

/-- ADDI (R110): `x[rx] <- x[rx] + B`. -/
def execAddi (rx : Reg) (imm8 : BitVec 8) (s : State) : StepResult := aluImmediate .add true rx imm8 s

/-- SUBI (R111): `x[rx] <- x[rx] - B`. -/
def execSubi (rx : Reg) (imm8 : BitVec 8) (s : State) : StepResult := aluImmediate .sub true rx imm8 s

/-- ADCI (R112): `x[rx] <- x[rx] + B + C`. -/
def execAdci (rx : Reg) (imm8 : BitVec 8) (s : State) : StepResult := aluImmediate .adc false rx imm8 s

/-- SBCI (R113): `x[rx] <- x[rx] - B - C`. -/
def execSbci (rx : Reg) (imm8 : BitVec 8) (s : State) : StepResult := aluImmediate .sbc false rx imm8 s

/-- RSUBI (R114): `x[rx] <- B - x[rx]`. -/
def execRsubi (rx : Reg) (imm8 : BitVec 8) (s : State) : StepResult := aluImmediate .rsub false rx imm8 s

/-- ANDI (R115): `x[rx] <- x[rx] & B`. -/
def execAndi (rx : Reg) (imm8 : BitVec 8) (s : State) : StepResult := aluImmediate .and true rx imm8 s

/-- ORI (R116): `x[rx] <- x[rx] | B`. -/
def execOri (rx : Reg) (imm8 : BitVec 8) (s : State) : StepResult := aluImmediate .or true rx imm8 s

/-- XORI (R117): `x[rx] <- x[rx] ^ B`. -/
def execXori (rx : Reg) (imm8 : BitVec 8) (s : State) : StepResult := aluImmediate .xor true rx imm8 s

end Sys2Proof.Machine
end

