-- ==== Sys2Proof/Machine/Branch.lean ====
section
/-! DEFINITION. The branch class (R160 to R178) and the two reserved encodings (R128, R176). -/

namespace Sys2Proof.Machine

/-- The next-PC select mux at the end of a branch-class step (R161, R162): the target where the condition holds, `npc`
otherwise; the prefix is cleared and a taken branch costs 2 more. -/
def branchStep (cond : Cond) (target : Word) (s : State) : StepResult :=
  let taken := cond.taken s.ccr
  .next (s.retire (if taken then target else s.npc) 0x0000#16 0 taken none)

/-- A branch on a condition with a displacement (R164 to R175). -/
def branchRelative (cond : Cond) (disp8 : BitVec 8) (s : State) : StepResult :=
  branchStep cond (branchTarget s.npc disp8) s

/-- BRA (R164): branch always. -/
def execBra (disp8 : BitVec 8) (s : State) : StepResult := branchRelative .always disp8 s

/-- BRN (R165): branch never. -/
def execBrn (disp8 : BitVec 8) (s : State) : StepResult := branchRelative .never disp8 s

/-- BHI (R166): branch if higher. -/
def execBhi (disp8 : BitVec 8) (s : State) : StepResult := branchRelative .higher disp8 s

/-- BLS (R167): branch if lower or same. -/
def execBls (disp8 : BitVec 8) (s : State) : StepResult := branchRelative .lowerOrSame disp8 s

/-- BHS (R168): branch if higher or same. -/
def execBhs (disp8 : BitVec 8) (s : State) : StepResult := branchRelative .higherOrSame disp8 s

/-- BLO (R169): branch if lower. -/
def execBlo (disp8 : BitVec 8) (s : State) : StepResult := branchRelative .lower disp8 s

/-- BEQ (R170): branch if equal. -/
def execBeq (disp8 : BitVec 8) (s : State) : StepResult := branchRelative .equal disp8 s

/-- BNE (R171): branch if not equal. -/
def execBne (disp8 : BitVec 8) (s : State) : StepResult := branchRelative .notEqual disp8 s

/-- BGT (R172): branch if greater (signed). -/
def execBgt (disp8 : BitVec 8) (s : State) : StepResult := branchRelative .greaterThan disp8 s

/-- BLE (R173): branch if less or equal (signed). -/
def execBle (disp8 : BitVec 8) (s : State) : StepResult := branchRelative .lessOrEqual disp8 s

/-- BGE (R174): branch if greater or equal (signed). -/
def execBge (disp8 : BitVec 8) (s : State) : StepResult := branchRelative .greaterOrEqual disp8 s

/-- BLT (R175): branch if less (signed). -/
def execBlt (disp8 : BitVec 8) (s : State) : StepResult := branchRelative .lessThan disp8 s

/-- RTS (R177): the target is `x[15] & 0xFFFE`, and the low byte of the word is ignored. -/
def execRts (_ignored : BitVec 8) (s : State) : StepResult :=
  branchStep .returnFromSubroutine (returnTarget (s.reg linkReg)) s

/-- JAL (R178): `x[15] <- npc`, and the target from before that write. -/
def execJal (disp8 : BitVec 8) (s : State) : StepResult :=
  branchStep .jumpAndLink (s.jalTarget disp8) (s.setReg linkReg s.npc)

/-- The reserved ALU-register functions (R128, R90). -/
def execReservedAlu (rx ry : Reg) (func : BitVec 4) (s : State) : StepResult :=
  .next (s.illegalStep (encode (.reservedAlu rx ry func)))

/-- The reserved branch selectors (R176, R90). -/
def execReservedBranch (cond : BitVec 4) (disp8 : BitVec 8) (s : State) : StepResult :=
  .next (s.illegalStep (encode (.reservedBranch cond disp8)))

end Sys2Proof.Machine
end

