-- ==== Sys2Proof/Machine/LoadStoreMove.lean ====
section
/-! DEFINITION. MOVI (R140), the loads and stores (R141 to R144) and IMM (R190). -/

namespace Sys2Proof.Machine

/-- MOVI (R140): `x[rx] <- B` and C cleared; N, V and Z stay. -/
def execMovi (rx : Reg) (imm8 : BitVec 8) (s : State) : StepResult :=
  .next (((s.setReg rx (immOperand s.immPrefix imm8)).setCcr { s.ccr with c := false }).retire s.npc 0x0000#16 0 false none)

/-- The end of a load: the value goes to `x[rx]`, or the read error raises `MemFault(load, ea)` (R141, R143). -/
def loadStep (rx : Reg) (ea : Word) (read : Option (Word × Nat)) (s : State) : StepResult :=
  match read with
  | some (v, cd) => .next ((s.setReg rx v).retire s.npc 0x0000#16 cd false none)
  | none => .next (s.raiseMemFault .load ea)

/-- The end of a store: the state with the bytes stored, or the error raises `MemFault(store, ea)` (R142, R144). -/
def storeStep (ea : Word) (write : Option (State × Nat)) (s : State) : StepResult :=
  match write with
  | some (s', cd) => .next (s'.retire s.npc 0x0000#16 cd false none)
  | none => .next (s.raiseMemFault .store ea)

/-- A byte read, zero-extended (R141, R143). -/
def State.readByteZext (s : State) (ea : Word) : Option (Word × Nat) :=
  match s.readByte ea with
  | some (b, cd) => some (b.setWidth 16, cd)
  | none => none

/-- The word transfer of LDW, a byte transfer where the address is odd (R141, R48). -/
def State.readWordOrByte (s : State) (ea : Word) : Option (Word × Nat) :=
  if ea.getLsbD 0 then s.readByteZext ea else s.readWord ea

/-- The word transfer of STW, a transfer of the low byte where the address is odd (R142, R48). -/
def State.writeWordOrByte (s : State) (ea v : Word) : Option (State × Nat) :=
  if ea.getLsbD 0 then s.writeByte ea (lowByte v) else s.writeWord ea v

/-- LDW (R141). -/
def execLdw (rx ry : Reg) (off4 : BitVec 4) (s : State) : StepResult :=
  loadStep rx (s.eaWord ry off4) (s.readWordOrByte (s.eaWord ry off4)) s

/-- STW (R142). -/
def execStw (rx ry : Reg) (off4 : BitVec 4) (s : State) : StepResult :=
  storeStep (s.eaWord ry off4) (s.writeWordOrByte (s.eaWord ry off4) (s.reg rx)) s

/-- LDB (R143). -/
def execLdb (rx ry : Reg) (off4 : BitVec 4) (s : State) : StepResult :=
  loadStep rx (s.eaByte ry off4) (s.readByteZext (s.eaByte ry off4)) s

/-- STB (R144). -/
def execStb (rx ry : Reg) (off4 : BitVec 4) (s : State) : StepResult :=
  storeStep (s.eaByte ry off4) (s.writeByte (s.eaByte ry off4) (lowByte (s.reg rx))) s

/-- IMM (R190): the prefix accumulates 12 bits; no register, flag or memory changes. -/
def execImm (imm12 : BitVec 12) (s : State) : StepResult :=
  .next (s.retire s.npc (accumulatePrefix s.immPrefix imm12) 0 false none)

end Sys2Proof.Machine
end

