-- ==== Sys2Proof/Machine/Dispatch.lean ====
section
/-! DEFINITION. The dispatcher (R83): one arm per constructor of Instr, each a direct call of the instruction's meaning. -/

namespace Sys2Proof.Machine

/-- The handler of an instruction with the end of its step (R83 to R87), after a fetch that succeeded. -/
def exec (i : Instr) (s : State) : Host.Outcome State Fault Refusal :=
  match i with
  | .add rx ry => Sys2Proof.Machine.execAdd rx ry s
  | .sub rx ry => Sys2Proof.Machine.execSub rx ry s
  | .adc rx ry => Sys2Proof.Machine.execAdc rx ry s
  | .sbc rx ry => Sys2Proof.Machine.execSbc rx ry s
  | .rsub rx ry => Sys2Proof.Machine.execRsub rx ry s
  | .and rx ry => Sys2Proof.Machine.execAnd rx ry s
  | .or rx ry => Sys2Proof.Machine.execOr rx ry s
  | .xor rx ry => Sys2Proof.Machine.execXor rx ry s
  | .addi rx imm8 => Sys2Proof.Machine.execAddi rx imm8 s
  | .subi rx imm8 => Sys2Proof.Machine.execSubi rx imm8 s
  | .adci rx imm8 => Sys2Proof.Machine.execAdci rx imm8 s
  | .sbci rx imm8 => Sys2Proof.Machine.execSbci rx imm8 s
  | .rsubi rx imm8 => Sys2Proof.Machine.execRsubi rx imm8 s
  | .andi rx imm8 => Sys2Proof.Machine.execAndi rx imm8 s
  | .ori rx imm8 => Sys2Proof.Machine.execOri rx imm8 s
  | .xori rx imm8 => Sys2Proof.Machine.execXori rx imm8 s
  | .movi rx imm8 => Sys2Proof.Machine.execMovi rx imm8 s
  | .ldw rx ry off4 => Sys2Proof.Machine.execLdw rx ry off4 s
  | .stw rx ry off4 => Sys2Proof.Machine.execStw rx ry off4 s
  | .ldb rx ry off4 => Sys2Proof.Machine.execLdb rx ry off4 s
  | .stb rx ry off4 => Sys2Proof.Machine.execStb rx ry off4 s
  | .bra disp8 => Sys2Proof.Machine.execBra disp8 s
  | .brn disp8 => Sys2Proof.Machine.execBrn disp8 s
  | .bhi disp8 => Sys2Proof.Machine.execBhi disp8 s
  | .bls disp8 => Sys2Proof.Machine.execBls disp8 s
  | .bhs disp8 => Sys2Proof.Machine.execBhs disp8 s
  | .blo disp8 => Sys2Proof.Machine.execBlo disp8 s
  | .beq disp8 => Sys2Proof.Machine.execBeq disp8 s
  | .bne disp8 => Sys2Proof.Machine.execBne disp8 s
  | .bgt disp8 => Sys2Proof.Machine.execBgt disp8 s
  | .ble disp8 => Sys2Proof.Machine.execBle disp8 s
  | .bge disp8 => Sys2Proof.Machine.execBge disp8 s
  | .blt disp8 => Sys2Proof.Machine.execBlt disp8 s
  | .rts ignored => Sys2Proof.Machine.execRts ignored s
  | .jal disp8 => Sys2Proof.Machine.execJal disp8 s
  | .imm imm12 => Sys2Proof.Machine.execImm imm12 s
  | .reservedAlu rx ry func => Sys2Proof.Machine.execReservedAlu rx ry func s
  | .reservedBranch cond disp8 => Sys2Proof.Machine.execReservedBranch cond disp8 s

end Sys2Proof.Machine
end

