-- ==== Sys2Proof/Machine/Step.lean ====
section
/-! DEFINITION. The step (R87): fetch and decode, then the instruction's handler with the end of its step. -/

namespace Sys2Proof.Machine

/-- One atomic fetch-decode-execute cycle (R9, R87). A fetch fault is the whole step (R82); while faulted there is no step
(R81). -/
def step (s : State) : Host.Outcome State Fault Refusal :=
  match s.fetchInstr with
  | .run i => exec i s
  | .latched s' => .next s'
  | .stuck => .fault .stuckUntilReset

/-- The state with a table instruction stored at the pc, where the step fetches its next instruction. -/
def State.withFetchWord (s : State) (nbits w : Nat) : State := s.placeWord (tableWord nbits w)

end Sys2Proof.Machine
end

