-- ==== Sys2Proof/Machine/Controller.lean ====
section
/-! DEFINITION. The host side of the block: the read-only snapshot (R29) and the Stepping/Breakpoint Controller that drives
`step` (R243 to R248). -/

namespace Sys2Proof.Machine

/-! ## Snapshot -/

/-- The read-only snapshot of the block's state (R29). -/
structure Snapshot where
  regs      : Vector Word 16
  pc        : Word
  ccr       : BitVec 4
  immPrefix : Word
  cycles    : BitVec 64
  faulted   : Bool
  faultInfo : Option FaultInfo
deriving DecidableEq, Repr

/-- Reading the snapshot, without side effect (R29). -/
def State.snapshot (s : State) : Snapshot :=
  { regs := s.regs, pc := s.pc, ccr := Flags.toBits s.ccr, immPrefix := s.immPrefix, cycles := s.cycles,
    faulted := s.faulted, faultInfo := s.faultInfo }

/-! ## Requests and how they end -/

/-- Why a step request ended (R244 to R246). -/
inductive StopReason where
  /-- Step-Into took its one step (R244). -/
  | stepped
  /-- The step, or the block before it, is faulted (R232). -/
  | faulted
  /-- `Illegal` was signalled and `HALT_ON_ILLEGAL` is true (R231). -/
  | illegal
  /-- The pc is the target of the run. -/
  | target
  /-- The pc is the breakpoint. -/
  | breakpoint
  /-- `MAX_STEPS` steps were executed. -/
  | bound
  /-- The external cancellation flag was set (D28, K1.10). -/
  | cancelled
deriving DecidableEq, Repr

/-- What a step request gives. -/
inductive RequestResult where
  /-- The request ended in this state. -/
  | stopped (s : State) (why : StopReason)
  /-- The Step-Over walk goes round an address space full of IMM words and never ends (R247); the state is that of the
  request. -/
  | walkNeverEnds (s : State)
deriving DecidableEq, Repr

/-- Set or clear the run/stop signal, which only the controller does (R243). -/
def State.setRunning (s : State) (b : Bool) : State := { s with running := b }

/-- Set or clear the breakpoint (R28, R243). -/
def State.setBreakpoint (s : State) (b : Option Word) : State := { s with breakpoint := b }

/-- Step-Into (R244): `step()` once, whatever breakpoint is set. -/
def State.stepInto (s : State) : RequestResult :=
  match step s with
  | .next s' => .stopped s' (if s'.faulted then .faulted else .stepped)
  | .fault _ => .stopped s .faulted
  | .refused _ => .stopped s .faulted

/-! ## The run loop -/

/-- The checks after a step (R245, D28), in their order: faulted, illegal with halt, the target, the breakpoint. None: go on. -/
def State.stopAfter (target : Word) (s : State) : Option StopReason :=
  if s.faulted then some .faulted
  else if s.out.illegal.isSome && s.cfg.haltOnIllegal then some .illegal
  else if s.pc = target then some .target
  else if s.breakpoint = some s.pc then some .breakpoint
  else none

/-- The run loop of R245 with at most `fuel` more steps. The optional cancellation flag, an outside input, is polled once per
iteration after the other checks (log entry 13). -/
def runLoop (target : Word) (cancel : Nat → Bool) : Nat → Nat → State → RequestResult
  | 0, _, s => .stopped s .bound
  | fuel + 1, n, s =>
    match step s with
    | .next s' =>
      match s'.stopAfter target with
      | some why => .stopped s' why
      | none =>
        if fuel = 0 then .stopped s' .bound
        else if cancel n then .stopped s' .cancelled
        else runLoop target cancel fuel (n + 1) s'
    | .fault _ => .stopped s .faulted
    | .refused _ => .stopped s .faulted

/-- The run/stop signal cleared at the end of a run. -/
def RequestResult.clearRunning : RequestResult → RequestResult
  | .stopped s why => .stopped (s.setRunning false) why
  | .walkNeverEnds s => .walkNeverEnds s

/-- `run(T)` (R245): the run/stop signal is set for the time of the run. -/
def State.runTo (s : State) (target : Word) (cancel : Nat → Bool) : RequestResult :=
  (runLoop target cancel s.cfg.maxSteps 0 (s.setRunning true)).clearRunning

/-! ## Step-Over and Step-Out -/

/-- Where the walk over an IMM chain ends (R247). -/
inductive ChainWalk where
  /-- At the first word that is no IMM. -/
  | consumer (t : Word)
  /-- At a word whose read errors. -/
  | readError (t : Word)
  /-- Nowhere. -/
  | endless
deriving DecidableEq, Repr

/-- The number of even addresses: a walk this long has seen every word. -/
def wordCount : Nat := 32768

/-- `while read_word(t)[15:12] = 0xF: t = (t + 2) mod 2^16` (R247), for at most `fuel` words. -/
def State.walkChain (s : State) : Nat → Word → ChainWalk
  | 0, _ => .endless
  | fuel + 1, t =>
    match s.readWord t with
    | some (w, _) => if fieldCls w = 0xF#4 then s.walkChain fuel (t + 2#16) else .consumer t
    | none => .readError t

/-- The Step-Over target (R247): the address after the instruction at the pc with its IMM chain. Where the walk meets a read
error the target is a free value (log entry 12); where it never ends there is none. -/
def State.stepOverTarget (s : State) : Option Word :=
  match s.walkChain wordCount s.pc with
  | .consumer t => some (t + 2#16)
  | .readError t => some (Config.freeStepOverTarget t)
  | .endless => none

/-- Step-Over (R247). -/
def State.stepOver (s : State) (cancel : Nat → Bool) : RequestResult :=
  match s.stepOverTarget with
  | some target => s.runTo target cancel
  | none => .walkNeverEnds s

/-- Step-Out (R248): `T = x[15] & 0xFFFE`, sampled once at the start. -/
def State.stepOut (s : State) (cancel : Nat → Bool) : RequestResult := s.runTo (returnTarget (s.reg linkReg)) cancel

end Sys2Proof.Machine
end

