-- ==== Sys2Proof/Machine/Disassembler.lean ====
section
/-! DEFINITION. The disassembler (R200 to R212): the ROM tables and the stateless formatter of one instruction word, on the same
decode function as the dispatcher (R211). Text is built as a list of characters. -/

namespace Sys2Proof.Machine

/-! ## ROM tables (R201) -/

/-- ALU_MN, indexed by the ALU operation: func of class 0, or class - 1 of classes 1 to 8. -/
def aluRom : List String := ["ADD", "SUB", "ADC", "SBC", "RSUB", "AND", "OR", "XOR"]

/-- COND_MN, indexed by cond; C and D have no entry. -/
def condRom : List (Option String) :=
  [some "BRA", some "BRN", some "BHI", some "BLS", some "BHS", some "BLO", some "BEQ", some "BNE",
   some "BGT", some "BLE", some "BGE", some "BLT", none, none, some "RTS", some "JAL"]

/-- REG_MN, indexed by the register number; register 14 is named SP (R20). -/
def regRom : List String :=
  ["R0", "R1", "R2", "R3", "R4", "R5", "R6", "R7", "R8", "R9", "R10", "R11", "R12", "R13", "SP", "R15"]

/-- LS_MN, indexed by class - A. -/
def loadStoreRom : List String := ["LDW", "STW", "LDB", "STB"]

/-- An entry of a ROM as characters. -/
def romText (rom : List String) (k : Nat) : List Char := (rom.getD k "").toList

/-- An entry of COND_MN as characters. -/
def condText (k : Nat) : List Char := ((condRom.getD k none).getD "").toList

/-- A register's name (R202). -/
def regText (r : Reg) : List Char := romText regRom r.val

/-! ## Numbers (R202) -/

/-- The upper-case hex digits. -/
def hexRom : List Char := ['0', '1', '2', '3', '4', '5', '6', '7', '8', '9', 'A', 'B', 'C', 'D', 'E', 'F']

/-- One upper-case hex digit. -/
def hexDigit (d : BitVec 4) : Char := hexRom.getD d.toNat '0'

/-- "0x" and two digits. -/
def hex2 (b : BitVec 8) : List Char := ['0', 'x', hexDigit (b.extractLsb' 4 4), hexDigit (b.extractLsb' 0 4)]

/-- "0x" and three digits. -/
def hex3 (v : BitVec 12) : List Char :=
  ['0', 'x', hexDigit (v.extractLsb' 8 4), hexDigit (v.extractLsb' 4 4), hexDigit (v.extractLsb' 0 4)]

/-- "0x" and four digits. -/
def hex4 (w : Word) : List Char :=
  ['0', 'x', hexDigit (w.extractLsb' 12 4), hexDigit (w.extractLsb' 8 4), hexDigit (w.extractLsb' 4 4),
   hexDigit (w.extractLsb' 0 4)]

/-! ## Formats by class -/

/-- R203: the operation of class 0 and two registers. -/
def textAluRegister (op : Nat) (rx ry : Reg) : List Char :=
  romText aluRom op ++ [' '] ++ regText rx ++ [','] ++ regText ry

/-- A mnemonic, a register and an immediate of eight bits (R204, R205). -/
def textRegisterImmediate (mnemonic : List Char) (rx : Reg) (imm8 : BitVec 8) : List Char :=
  mnemonic ++ [' '] ++ regText rx ++ [',', '#'] ++ hex2 imm8

/-- R204: the operation of classes 1 to 8; only the local immediate is shown. -/
def textAluImmediate (op : Nat) (rx : Reg) (imm8 : BitVec 8) : List Char := textRegisterImmediate (romText aluRom op) rx imm8

/-- R206: a load or store with its byte offset. -/
def textLoadStore (k : Nat) (rx ry : Reg) (offset : BitVec 8) : List Char :=
  romText loadStoreRom k ++ [' '] ++ regText rx ++ [',', '['] ++ regText ry ++ ['+'] ++ hex2 offset ++ [']']

/-- R207: a branch or JAL with its unprefixed target. -/
def textBranch (cond : Nat) (addr : Word) (disp8 : BitVec 8) : List Char :=
  condText cond ++ [' '] ++ hex4 (branchTarget (addr + 2#16) disp8)

/-- R210: the placeholder of a reserved encoding. -/
def textPlaceholder (w : Word) : List Char := ['D', 'W', ' '] ++ hex4 w

/-- The text of an instruction at an address (R203 to R210). -/
def instrText (addr : Word) (i : Instr) : List Char :=
  match i with
  | .add rx ry => textAluRegister 0 rx ry
  | .sub rx ry => textAluRegister 1 rx ry
  | .adc rx ry => textAluRegister 2 rx ry
  | .sbc rx ry => textAluRegister 3 rx ry
  | .rsub rx ry => textAluRegister 4 rx ry
  | .and rx ry => textAluRegister 5 rx ry
  | .or rx ry => textAluRegister 6 rx ry
  | .xor rx ry => textAluRegister 7 rx ry
  | .addi rx imm8 => textAluImmediate 0 rx imm8
  | .subi rx imm8 => textAluImmediate 1 rx imm8
  | .adci rx imm8 => textAluImmediate 2 rx imm8
  | .sbci rx imm8 => textAluImmediate 3 rx imm8
  | .rsubi rx imm8 => textAluImmediate 4 rx imm8
  | .andi rx imm8 => textAluImmediate 5 rx imm8
  | .ori rx imm8 => textAluImmediate 6 rx imm8
  | .xori rx imm8 => textAluImmediate 7 rx imm8
  | .movi rx imm8 => textRegisterImmediate ['M', 'O', 'V'] rx imm8
  | .ldw rx ry off4 => textLoadStore 0 rx ry (2#8 * off4.setWidth 8)
  | .stw rx ry off4 => textLoadStore 1 rx ry (2#8 * off4.setWidth 8)
  | .ldb rx ry off4 => textLoadStore 2 rx ry (off4.setWidth 8)
  | .stb rx ry off4 => textLoadStore 3 rx ry (off4.setWidth 8)
  | .bra disp8 => textBranch 0 addr disp8
  | .brn disp8 => textBranch 1 addr disp8
  | .bhi disp8 => textBranch 2 addr disp8
  | .bls disp8 => textBranch 3 addr disp8
  | .bhs disp8 => textBranch 4 addr disp8
  | .blo disp8 => textBranch 5 addr disp8
  | .beq disp8 => textBranch 6 addr disp8
  | .bne disp8 => textBranch 7 addr disp8
  | .bgt disp8 => textBranch 8 addr disp8
  | .ble disp8 => textBranch 9 addr disp8
  | .bge disp8 => textBranch 10 addr disp8
  | .blt disp8 => textBranch 11 addr disp8
  | .rts _ => condText 14
  | .jal disp8 => textBranch 15 addr disp8
  | .imm imm12 => ['I', 'M', 'M', ' ', '#'] ++ hex3 imm12
  | .reservedAlu rx ry func => textPlaceholder (encode (.reservedAlu rx ry func))
  | .reservedBranch cond disp8 => textPlaceholder (encode (.reservedBranch cond disp8))

/-- The formatter on characters: `(address, instruction_word) -> text` (R200). -/
def disassembleChars (addr w : Word) : List Char := instrText addr (decodeWord w)

/-- `disassemble(addr, word) -> text` (R80, R200). -/
def disassemble (addr w : Word) : String := String.ofList (disassembleChars addr w)

/-- The assembler syntax (R213): a line of text at an address stands for every word that prints as it. -/
def assemblesTo (addr : Word) (text : String) (w : Word) : Prop := disassemble addr w = text

/-- The debugger's `disassemble(addr) -> text` (R212): the word at the address through `read_word`, or the text of a read
error. It changes no state, adds no cycles and sets no latch. -/
def State.disassembleAt (s : State) (addr : Word) : String :=
  match s.readWord addr with
  | some (w, _) => disassemble addr w
  | none => "DW ????"

end Sys2Proof.Machine
end

