-- ==== Sys2Proof/Safety.lean ====
section
/-! DEFINITION. The terms that claims are stated in: the invariant, what a step may and may not change, and the numbers an
instruction's result is compared with. Nothing here is called by the machine. -/

namespace Sys2Proof.Machine

/-! ## The invariant of every state a run reaches -/

/-- The parameters are legal (R5), the pc is even (R22, R32), memory is in its canonical form and lists only addresses below
`MEM_BYTES` (R40), and `fault_info` is set exactly while the latch is (R27, R31). The unused bits of ccr (R32) do not exist
in `Flags`. -/
abbrev State.Inv (s : State) : Prop :=
  s.cfg.wf ∧ s.pc.getLsbD 0 = false ∧ Memory.wf s.mem ∧ Memory.below s.mem s.cfg.memBytes ∧
    s.faulted = s.faultInfo.isSome

/-! ## Frames -/

/-- No general register changed. -/
def SameRegs (s t : State) : Prop := ∀ q : Reg, t.reg q = s.reg q

/-- Register `r` holds `v`, and no other general register changed. -/
def OnlyRegWritten (s t : State) (r : Reg) (v : Word) : Prop := t.reg r = v ∧ ∀ q : Reg, q ≠ r → t.reg q = s.reg q

/-- Every byte of memory reads as before. -/
def SameMemory (s t : State) : Prop := ∀ a : Nat, t.byteAt a = s.byteAt a

/-- Every byte outside the `n` bytes from `a` on reads as before. -/
def SameMemoryOutside (s t : State) (a n : Nat) : Prop := ∀ b : Nat, b < a ∨ a + n ≤ b → t.byteAt b = s.byteAt b

/-- How a step that raises no memory fault ends: the pc, the prefix, the cost added to the counter and put out, and the
`Illegal` output as given; the fault latch, the controller's fields and the parameters as before. -/
def Ends (s t : State) (pc' newPrefix : Word) (cost : Nat) (illegal : Option IllegalSignal) : Prop :=
  t.pc = pc' ∧ t.immPrefix = newPrefix ∧ t.cycles = addCycles s.cycles cost ∧
    t.out = { cost := some cost, illegal := illegal, memFault := none } ∧ t.faulted = s.faulted ∧
    t.faultInfo = s.faultInfo ∧ t.breakpoint = s.breakpoint ∧ t.running = s.running ∧ t.cfg = s.cfg

/-- A step that raised `MemFault(kind, a)`: the latch, `fault_info` and the output are set, and every register, flag, the pc,
the prefix, the counter, memory, the controller's fields and the parameters are as before. -/
def MemFaulted (s t : State) (kind : FaultKind) (a : Word) : Prop :=
  t.faulted = true ∧ t.faultInfo = some { kind := kind, addr := a } ∧
    t.out = { cost := none, illegal := none, memFault := some { kind := kind, addr := a } } ∧
    t.regs = s.regs ∧ t.ccr = s.ccr ∧ t.pc = s.pc ∧ t.immPrefix = s.immPrefix ∧ t.cycles = s.cycles ∧ t.mem = s.mem ∧
    t.breakpoint = s.breakpoint ∧ t.running = s.running ∧ t.cfg = s.cfg

/-- What an ALU instruction does: the result `r` in `rx` only, N and Z from `r`, C and V as given, memory as before, and the
end of a one-access step with the prefix cleared. -/
def AluWrites (s t : State) (rx : Reg) (r : Word) (c v : Bool) : Prop :=
  OnlyRegWritten s t rx r ∧ t.ccr = { n := decide (r.toInt < 0), c := c, v := v, z := decide (r.toNat = 0) } ∧
    SameMemory s t ∧ Ends s t (s.pc + 2#16) 0x0000#16 s.fetchCost none

/-- What a branch does: the target where the condition holds, else the next instruction; 2 more cost if taken; no register,
flag or byte of memory changes. -/
def Branches (s t : State) (holds : Bool) (target : Word) : Prop :=
  SameRegs s t ∧ t.ccr = s.ccr ∧ SameMemory s t ∧
    Ends s t (if holds then target else s.pc + 2#16) 0x0000#16 (s.fetchCost + (if holds then 2 else 0)) none

/-! ## Numbers -/

/-- The carry of an unsigned sum. -/
def carryOf (a b : Word) (ci : Bool) : Bool := decide (2 ^ 16 ≤ a.toNat + b.toNat + ci.toNat)

/-- The borrow of an unsigned difference. -/
def borrowOf (a b : Word) (ci : Bool) : Bool := decide (a.toNat < b.toNat + ci.toNat)

/-- The integer does not fit in 16 bits, two's complement. -/
def overflows (x : Int) : Bool := decide (x < -32768 ∨ 32767 < x)

/-- The literal V formula of R104 for operands a and b and result r. -/
def literalV (a b r : Word) : Bool := (a ^^^ r).getLsbD 15 && (b ^^^ r).getLsbD 15

/-- The prefixed immediate as a number mod 2^16. -/
def prefixedImmediate (p : Word) (m : BitVec 8) : Word := BitVec.ofNat 16 (256 * p.toNat + m.toNat)

/-- The target of a displacement of words from the address after the instruction at `pc`, as an integer mod 2^16. -/
def displacedTarget (pc : Word) (words : Int) : Word := BitVec.ofInt 16 (pc.toNat + 2 + 2 * words)

/-! ## Classes of instructions -/

/-- The general register an instruction may write (R21). -/
def destOf : Instr → Option Reg
  | .add rx _ => some rx
  | .sub rx _ => some rx
  | .adc rx _ => some rx
  | .sbc rx _ => some rx
  | .rsub rx _ => some rx
  | .and rx _ => some rx
  | .or rx _ => some rx
  | .xor rx _ => some rx
  | .addi rx _ => some rx
  | .subi rx _ => some rx
  | .adci rx _ => some rx
  | .sbci rx _ => some rx
  | .rsubi rx _ => some rx
  | .andi rx _ => some rx
  | .ori rx _ => some rx
  | .xori rx _ => some rx
  | .movi rx _ => some rx
  | .ldw rx _ _ => some rx
  | .stw _ _ _ => none
  | .ldb rx _ _ => some rx
  | .stb _ _ _ => none
  | .bra _ => none
  | .brn _ => none
  | .bhi _ => none
  | .bls _ => none
  | .bhs _ => none
  | .blo _ => none
  | .beq _ => none
  | .bne _ => none
  | .bgt _ => none
  | .ble _ => none
  | .bge _ => none
  | .blt _ => none
  | .rts _ => none
  | .jal _ => some linkReg
  | .imm _ => none
  | .reservedAlu _ _ _ => none
  | .reservedBranch _ _ => none

/-- The instructions that write a flag (R24): the ALU instructions and MOVI. -/
def writesFlags : Instr → Bool
  | .add _ _ => true
  | .sub _ _ => true
  | .adc _ _ => true
  | .sbc _ _ => true
  | .rsub _ _ => true
  | .and _ _ => true
  | .or _ _ => true
  | .xor _ _ => true
  | .addi _ _ => true
  | .subi _ _ => true
  | .adci _ _ => true
  | .sbci _ _ => true
  | .rsubi _ _ => true
  | .andi _ _ => true
  | .ori _ _ => true
  | .xori _ _ => true
  | .movi _ _ => true
  | .ldw _ _ _ => false
  | .stw _ _ _ => false
  | .ldb _ _ _ => false
  | .stb _ _ _ => false
  | .bra _ => false
  | .brn _ => false
  | .bhi _ => false
  | .bls _ => false
  | .bhs _ => false
  | .blo _ => false
  | .beq _ => false
  | .bne _ => false
  | .bgt _ => false
  | .ble _ => false
  | .bge _ => false
  | .blt _ => false
  | .rts _ => false
  | .jal _ => false
  | .imm _ => false
  | .reservedAlu _ _ _ => false
  | .reservedBranch _ _ => false

/-- The address of the bytes an instruction stores and their number (R142, R144), with the meaning's own address functions: a
word where STW's address is even, else one byte; none for an instruction that stores nothing. -/
def State.storeTarget (s : State) : Instr → Option (Word × Nat)
  | .add _ _ => none
  | .sub _ _ => none
  | .adc _ _ => none
  | .sbc _ _ => none
  | .rsub _ _ => none
  | .and _ _ => none
  | .or _ _ => none
  | .xor _ _ => none
  | .addi _ _ => none
  | .subi _ _ => none
  | .adci _ _ => none
  | .sbci _ _ => none
  | .rsubi _ _ => none
  | .andi _ _ => none
  | .ori _ _ => none
  | .xori _ _ => none
  | .movi _ _ => none
  | .ldw _ _ _ => none
  | .stw _ ry off4 => some (s.eaWord ry off4, if (s.eaWord ry off4).getLsbD 0 then 1 else 2)
  | .ldb _ _ _ => none
  | .stb _ ry off4 => some (s.eaByte ry off4, 1)
  | .bra _ => none
  | .brn _ => none
  | .bhi _ => none
  | .bls _ => none
  | .bhs _ => none
  | .blo _ => none
  | .beq _ => none
  | .bne _ => none
  | .bgt _ => none
  | .ble _ => none
  | .bge _ => none
  | .blt _ => none
  | .rts _ => none
  | .jal _ => none
  | .imm _ => none
  | .reservedAlu _ _ _ => none
  | .reservedBranch _ _ => none

/-- The cost of an instruction where every word access costs `c`, as the table of R269 gives it. -/
def State.tableCost (s : State) (c : Nat) : Instr → Nat
  | .add _ _ => c
  | .sub _ _ => c
  | .adc _ _ => c
  | .sbc _ _ => c
  | .rsub _ _ => c
  | .and _ _ => c
  | .or _ _ => c
  | .xor _ _ => c
  | .addi _ _ => c
  | .subi _ _ => c
  | .adci _ _ => c
  | .sbci _ _ => c
  | .rsubi _ _ => c
  | .andi _ _ => c
  | .ori _ _ => c
  | .xori _ _ => c
  | .movi _ _ => c
  | .ldw _ _ _ => 2 * c
  | .stw _ ry off4 => if (s.eaWord ry off4).getLsbD 0 then 3 * c else 2 * c
  | .ldb _ _ _ => 2 * c
  | .stb _ _ _ => 3 * c
  | .bra _ => c + 2
  | .brn _ => c
  | .bhi _ => if !s.ccr.c && !s.ccr.z then c + 2 else c
  | .bls _ => if s.ccr.c || s.ccr.z then c + 2 else c
  | .bhs _ => if !s.ccr.c then c + 2 else c
  | .blo _ => if s.ccr.c then c + 2 else c
  | .beq _ => if s.ccr.z then c + 2 else c
  | .bne _ => if !s.ccr.z then c + 2 else c
  | .bgt _ => if !s.ccr.z && !(s.ccr.n ^^ s.ccr.v) then c + 2 else c
  | .ble _ => if s.ccr.z || (s.ccr.n ^^ s.ccr.v) then c + 2 else c
  | .bge _ => if !(s.ccr.n ^^ s.ccr.v) then c + 2 else c
  | .blt _ => if s.ccr.n ^^ s.ccr.v then c + 2 else c
  | .rts _ => c + 2
  | .jal _ => c + 2
  | .imm _ => c
  | .reservedAlu _ _ _ => c
  | .reservedBranch _ _ => c

/-! ## Runs of instructions and results -/

/-- Run instructions one after another, each as `exec` does, while there is a next state. -/
def execAll : List Instr → State → Host.Outcome State Fault Refusal
  | [], s => .next s
  | i :: is, s =>
    match exec i s with
    | .next t => execAll is t
    | .fault r => .fault r
    | .refused r => .refused r

/-- Take `k` steps, while there is a next state. -/
def stepTimes : Nat → State → Host.Outcome State Fault Refusal
  | 0, s => .next s
  | k + 1, s =>
    match step s with
    | .next t => stepTimes k t
    | .fault r => .fault r
    | .refused r => .refused r

/-- The last step signalled `Illegal` and `HALT_ON_ILLEGAL` is true (R231, R245). -/
def State.HaltsOnIllegal (s : State) : Prop := s.out.illegal.isSome = true ∧ s.cfg.haltOnIllegal = true

/-- A stop condition of a run to `target` other than the bound holds (R246). -/
def State.MustStop (target : Word) (s : State) : Prop :=
  s.faulted = true ∨ s.HaltsOnIllegal ∨ s.pc = target ∨ s.breakpoint = some s.pc

/-- The reason a run to `target` names holds in the state `u` after its `k`-th step, and no reason that is checked before it does
(R245, D28). -/
def State.StopsBecause (target : Word) (maxSteps : Nat) (cancel : Nat → Bool) (k : Nat) (u : State) : StopReason → Prop
  | .stepped => False
  | .faulted => u.faulted = true
  | .illegal => u.faulted = false ∧ u.HaltsOnIllegal
  | .target => u.faulted = false ∧ ¬ u.HaltsOnIllegal ∧ u.pc = target
  | .breakpoint => u.faulted = false ∧ ¬ u.HaltsOnIllegal ∧ u.pc ≠ target ∧ u.breakpoint = some u.pc
  | .bound => ¬ u.MustStop target ∧ k = maxSteps
  | .cancelled => ¬ u.MustStop target ∧ k < maxSteps ∧ cancel (k - 1) = true

/-- The same outcome with a change made to the next state. -/
def onNext (f : State → State) : Host.Outcome State Fault Refusal → Host.Outcome State Fault Refusal
  | .next t => .next (f t)
  | .fault r => .fault r
  | .refused r => .refused r

/-- The same state with other values of what belongs to the debug controller: the breakpoint, the run/stop signal and the
parameters `HALT_ON_ILLEGAL` and `MAX_STEPS` (R28, R231, R243, R246). -/
def State.withController (s : State) (bp : Option Word) (run halt : Bool) (maxSteps : Nat) : State :=
  { s with
    breakpoint := bp
    running := run
    cfg := { s.cfg with haltOnIllegal := halt, maxSteps := maxSteps } }

end Sys2Proof.Machine
end

