-- ==== Sys2Proof/Certificates/Slice0/Obligations.lean ====
section
/-! DEFINITION. The statements for the provers. Each docstring names the rules it formalises. -/

open Sys2Proof Sys2Proof.Machine

/-! ## Reset, the step and the exceptional events -/

/-- R31: what `reset()` sets, and what it leaves (memory). -/
def Obligations.ResetSetsEveryElement : Prop :=
  ∀ s : State,
    (∀ r : Reg, s.doReset.reg r = 0x0000#16) ∧ s.doReset.pc = 0x0000#16 ∧
    s.doReset.ccr = { n := false, c := false, v := false, z := false } ∧ s.doReset.immPrefix = 0x0000#16 ∧
    s.doReset.cycles.toNat = 0 ∧ s.doReset.faulted = false ∧ s.doReset.faultInfo = none ∧ s.doReset.breakpoint = none ∧
    SameMemory s s.doReset

/-- The invariant of the model holds right after reset (R32: "Reset establishes all four"), and `reset()` keeps it from every
state that meets it, signals no output (R260) and leaves the parameters, which are the model's own field (log entry 2). -/
def Obligations.ResetStateMeetsInvariant : Prop :=
  State.reset.Inv ∧ State.reset.doReset = State.reset ∧
  ∀ s : State, s.Inv → s.doReset.Inv ∧ s.doReset.out = StepOut.none ∧ s.doReset.cfg = s.cfg

/-- Every step keeps the invariant, from every state that meets it: legal parameters, an even pc, canonical memory inside the
address space, and `fault_info` set exactly while the latch is. -/
def Obligations.EveryStepKeepsInvariant : Prop :=
  ∀ s t : State, s.Inv → step s = .next t → t.Inv

/-- R81 to R83: where the block is not faulted and the two bytes at an even pc inside memory decode to an instruction, the step
is `exec` of it in that state; the pc moves past the word inside `exec`. -/
def Obligations.StepRunsDecodedInstruction : Prop :=
  ∀ (s : State) (i : Instr),
    s.faulted = false → s.pc.getLsbD 0 = false → s.pc.toNat + 2 ≤ s.cfg.memBytes →
    decode [s.byteAt s.pc.toNat, s.byteAt (s.pc.toNat + 1)] = .ok (i, []) →
    step s = exec i s

/-- R82: a fetch beyond `MEM_BYTES` raises `MemFault(fetch, pc)` and changes nothing but the latch. -/
def Obligations.FetchBeyondMemoryFaults : Prop :=
  ∀ s : State, s.faulted = false → s.cfg.memBytes < s.pc.toNat + 2 →
    ∃ t, step s = .next t ∧ MemFaulted s t .fetch s.pc

/-- R88: a step that raises a memory fault changes nothing but the latch and `fault_info` (and puts out `MemFault`), and the
write of a byte store cannot fail once its read has succeeded. -/
def Obligations.MemFaultIsPrecise : Prop :=
  (∀ s t : State, s.faulted = false → step s = .next t → t.faulted = true → ∃ kind a, MemFaulted s t kind a) ∧
  (∀ (s : State) (a : Word) (b : Byte) (r : Word × Nat), s.readWord (evenAddr a) = some r →
    ∃ w, s.writeByte a b = some w)

/-- R81: a step can be taken exactly when the block is not faulted, and then it always answers a next state (that a memory fault
is a next state and a later step a fault is log entry 6); `reset()` clears the latch, and loading memory keeps it. The clause on
step requests is the model's choice: that a request to a faulted block takes no step and ends at once with the reason `faulted` is
log entry 16 (DEDUCED), and that a run clears the run/stop signal, the model's own field, at its end is log entry 15 (DESIGN
CHOICE). -/
def Obligations.StepTakenExactlyWhenNotFaulted : Prop :=
  (∀ s : State, (∃ t, step s = .next t) ↔ s.faulted = false) ∧
  (∀ s : State, s.doReset.faulted = false) ∧
  (∀ (s : State) (target : Word) (cancel : Nat → Bool), s.faulted = true → 0 < s.cfg.maxSteps →
    s.stepInto = .stopped s .faulted ∧ s.runTo target cancel = .stopped (s.setRunning false) .faulted) ∧
  (∀ (s t : State) (addr : Nat) (buffer : List Byte) (length : Nat), s.copyBytes addr buffer length = some t →
    t.faulted = s.faulted)

/-- No instruction is ever refused or stops the machine: every one answers a next state from every state (R74, R230: "execution
continues at the next instruction"; R232: a memory fault is a next state with the latch set). -/
def Obligations.EveryInstructionAnswersNext : Prop :=
  ∀ (i : Instr) (s : State), ∃ t, exec i s = .next t

/-- R232: which faults an instruction raises, and with which address: only a load raises a load fault, only a store a store
fault, each at its effective address. -/
def Obligations.FaultNamesFailingAccess : Prop :=
  ∀ (s t : State) (i : Instr), s.faulted = false → exec i s = .next t → t.faulted = true →
    (∃ rx ry off4, i = .ldw rx ry off4 ∧ MemFaulted s t .load (s.eaWord ry off4)) ∨
    (∃ rx ry off4, i = .ldb rx ry off4 ∧ MemFaulted s t .load (s.eaByte ry off4)) ∨
    (∃ rx ry off4, i = .stw rx ry off4 ∧ MemFaulted s t .store (s.eaWord ry off4)) ∨
    (∃ rx ry off4, i = .stb rx ry off4 ∧ MemFaulted s t .store (s.eaByte ry off4))

/-- R90, R128, R176: a reserved encoding is a no-op that signals `Illegal` with its own word, clears the prefix and costs the
fetch. -/
def Obligations.ReservedEncodingsSignalIllegal : Prop :=
  (∀ (rx ry : Reg) (func : BitVec 4) (s : State), reservedFunc func = true →
    ∃ t, exec (.reservedAlu rx ry func) s = .next t ∧ SameRegs s t ∧ t.ccr = s.ccr ∧ SameMemory s t ∧
      Ends s t (s.pc + 2#16) 0x0000#16 s.fetchCost
        (some { addr := s.pc, word := BitVec.ofNat 16 (256 * rx.val + 16 * ry.val + func.toNat) })) ∧
  (∀ (cond : BitVec 4) (disp8 : BitVec 8) (s : State), reservedCond cond = true →
    ∃ t, exec (.reservedBranch cond disp8) s = .next t ∧ SameRegs s t ∧ t.ccr = s.ccr ∧ SameMemory s t ∧
      Ends s t (s.pc + 2#16) 0x0000#16 s.fetchCost
        (some { addr := s.pc, word := BitVec.ofNat 16 (0xE000 + 256 * cond.toNat + disp8.toNat) }))

/-! ## ALU -/

/-- R102 with R101: for all operands the result of ADC and ADD is the sum mod 2^16, and the carry-out is the unsigned wraparound
comparison, which is the carry of the exact sum. -/
def Obligations.AddCarryIsExact : Prop :=
  ∀ (a b : Word) (ci : Bool),
    (AluOp.adc.apply a b ci).1.toNat = (a.toNat + b.toNat + ci.toNat) % 2 ^ 16 ∧
    (AluOp.adc.apply a b ci).2 = carryOf a b ci ∧
    (AluOp.adc.apply a b ci).2 = (if ci then decide ((AluOp.adc.apply a b ci).1.toNat ≤ a.toNat)
      else decide ((AluOp.adc.apply a b ci).1.toNat < a.toNat)) ∧
    (AluOp.add.apply a b ci).1.toNat = (a.toNat + b.toNat) % 2 ^ 16 ∧
    (AluOp.add.apply a b ci).2 = carryOf a b false ∧
    (AluOp.add.apply a b ci).2 = decide ((AluOp.add.apply a b ci).1.toNat < a.toNat)

/-- R103: for all operands SBC and SUB give the difference mod 2^16, and their carry-out is the borrow. -/
def Obligations.SubtractBorrowIsExact : Prop :=
  ∀ (a b : Word) (ci : Bool),
    (AluOp.sbc.apply a b ci).1 = BitVec.ofInt 16 (a.toNat - b.toNat - ci.toNat) ∧
    (AluOp.sbc.apply a b ci).2 = borrowOf a b ci ∧
    (AluOp.sub.apply a b ci).1 = BitVec.ofInt 16 (a.toNat - b.toNat) ∧
    (AluOp.sub.apply a b ci).2 = borrowOf a b false

/-- R104 and R129: the V flag of ADD, ADC, SUB and SBC is signed overflow of the exact sum or difference. -/
def Obligations.OverflowFlagIsSignedOverflow : Prop :=
  ∀ (a b : Word) (ci : Bool),
    (let rc := AluOp.adc.apply a b ci
     (flagUnit .adc a b rc.1 rc.2).v = overflows (a.toInt + b.toInt + ci.toNat)) ∧
    (let rc := AluOp.add.apply a b ci
     (flagUnit .add a b rc.1 rc.2).v = overflows (a.toInt + b.toInt)) ∧
    (let rc := AluOp.sbc.apply a b ci
     (flagUnit .sbc a b rc.1 rc.2).v = overflows (a.toInt - b.toInt - ci.toNat)) ∧
    (let rc := AluOp.sub.apply a b ci
     (flagUnit .sub a b rc.1 rc.2).v = overflows (a.toInt - b.toInt))

/-- R110: ADDI. -/
def Obligations.AddImmediateWritesSum : Prop :=
  ∀ (rx : Reg) (imm8 : BitVec 8) (s : State),
    let a := s.reg rx
    let b := prefixedImmediate s.immPrefix imm8
    ∃ t, exec (.addi rx imm8) s = .next t ∧
      AluWrites s t rx (BitVec.ofNat 16 (a.toNat + b.toNat)) (carryOf a b false) (overflows (a.toInt + b.toInt))

/-- R111: SUBI. -/
def Obligations.SubtractImmediateWritesDifference : Prop :=
  ∀ (rx : Reg) (imm8 : BitVec 8) (s : State),
    let a := s.reg rx
    let b := prefixedImmediate s.immPrefix imm8
    ∃ t, exec (.subi rx imm8) s = .next t ∧
      AluWrites s t rx (BitVec.ofInt 16 (a.toNat - b.toNat)) (borrowOf a b false) (overflows (a.toInt - b.toInt))

/-- R112 and R113: ADCI and SBCI take C in. -/
def Obligations.CarryImmediateFormsUseCarry : Prop :=
  ∀ (rx : Reg) (imm8 : BitVec 8) (s : State),
    let a := s.reg rx
    let b := prefixedImmediate s.immPrefix imm8
    let ci := s.ccr.c
    (∃ t, exec (.adci rx imm8) s = .next t ∧
      AluWrites s t rx (BitVec.ofNat 16 (a.toNat + b.toNat + ci.toNat)) (carryOf a b ci)
        (overflows (a.toInt + b.toInt + ci.toNat))) ∧
    (∃ t, exec (.sbci rx imm8) s = .next t ∧
      AluWrites s t rx (BitVec.ofInt 16 (a.toNat - b.toNat - ci.toNat)) (borrowOf a b ci)
        (overflows (a.toInt - b.toInt - ci.toNat)))

/-- R114: RSUBI keeps C, and its V is the literal formula. -/
def Obligations.ReverseSubtractImmediateKeepsCarry : Prop :=
  ∀ (rx : Reg) (imm8 : BitVec 8) (s : State),
    let a := s.reg rx
    let b := prefixedImmediate s.immPrefix imm8
    let r := BitVec.ofInt 16 (b.toNat - a.toNat)
    ∃ t, exec (.rsubi rx imm8) s = .next t ∧ AluWrites s t rx r s.ccr.c (literalV a b r)

/-- R115 to R117: ANDI, ORI and XORI clear C; V is 0 for ANDI and ORI and the literal formula for XORI. -/
def Obligations.LogicalImmediateFormsClearCarry : Prop :=
  ∀ (rx : Reg) (imm8 : BitVec 8) (s : State),
    let a := s.reg rx
    let b := prefixedImmediate s.immPrefix imm8
    (∃ t, exec (.andi rx imm8) s = .next t ∧ AluWrites s t rx (a &&& b) false false) ∧
    (∃ t, exec (.ori rx imm8) s = .next t ∧ AluWrites s t rx (a ||| b) false false) ∧
    (∃ t, exec (.xori rx imm8) s = .next t ∧ AluWrites s t rx (a ^^^ b) false (a.getLsbD 15 && b.getLsbD 15))

/-- R120 and R121: ADD and SUB ignore C. -/
def Obligations.AddSubRegisterIgnoreCarry : Prop :=
  ∀ (rx ry : Reg) (s : State),
    let a := s.reg rx
    let b := s.reg ry
    (∃ t, exec (.add rx ry) s = .next t ∧
      AluWrites s t rx (BitVec.ofNat 16 (a.toNat + b.toNat)) (carryOf a b false) (overflows (a.toInt + b.toInt))) ∧
    (∃ t, exec (.sub rx ry) s = .next t ∧
      AluWrites s t rx (BitVec.ofInt 16 (a.toNat - b.toNat)) (borrowOf a b false) (overflows (a.toInt - b.toInt)))

/-- R122 and R123: ADC and SBC take C in. -/
def Obligations.AdcSbcRegisterUseCarry : Prop :=
  ∀ (rx ry : Reg) (s : State),
    let a := s.reg rx
    let b := s.reg ry
    let ci := s.ccr.c
    (∃ t, exec (.adc rx ry) s = .next t ∧
      AluWrites s t rx (BitVec.ofNat 16 (a.toNat + b.toNat + ci.toNat)) (carryOf a b ci)
        (overflows (a.toInt + b.toInt + ci.toNat))) ∧
    (∃ t, exec (.sbc rx ry) s = .next t ∧
      AluWrites s t rx (BitVec.ofInt 16 (a.toNat - b.toNat - ci.toNat)) (borrowOf a b ci)
        (overflows (a.toInt - b.toInt - ci.toNat)))

/-- R124: RSUB keeps C, and its V is the literal formula. -/
def Obligations.ReverseSubtractRegisterKeepsCarry : Prop :=
  ∀ (rx ry : Reg) (s : State),
    let a := s.reg rx
    let b := s.reg ry
    let r := BitVec.ofInt 16 (b.toNat - a.toNat)
    ∃ t, exec (.rsub rx ry) s = .next t ∧ AluWrites s t rx r s.ccr.c (literalV a b r)

/-- R125 to R127: AND, OR and XOR keep C; V is 0 for AND and OR, and for XOR it is set exactly when both operands are negative,
which is the literal formula. -/
def Obligations.LogicalRegisterFormsKeepCarry : Prop :=
  ∀ (rx ry : Reg) (s : State),
    let a := s.reg rx
    let b := s.reg ry
    (∃ t, exec (.and rx ry) s = .next t ∧ AluWrites s t rx (a &&& b) s.ccr.c false) ∧
    (∃ t, exec (.or rx ry) s = .next t ∧ AluWrites s t rx (a ||| b) s.ccr.c false) ∧
    (∃ t, exec (.xor rx ry) s = .next t ∧ AluWrites s t rx (a ^^^ b) s.ccr.c (a.getLsbD 15 && b.getLsbD 15))

/-! ## Move, load and store -/

/-- R140: MOVI writes the prefixed immediate, clears C and leaves N, V and Z. -/
def Obligations.MoveImmediateClearsOnlyCarry : Prop :=
  ∀ (rx : Reg) (imm8 : BitVec 8) (s : State),
    ∃ t, exec (.movi rx imm8) s = .next t ∧ OnlyRegWritten s t rx (prefixedImmediate s.immPrefix imm8) ∧
      t.ccr = { s.ccr with c := false } ∧ SameMemory s t ∧ Ends s t (s.pc + 2#16) 0x0000#16 s.fetchCost none

/-- R71: the offset of a word transfer is scaled by 2, that of a byte transfer is not, and the sum wraps mod 2^16. -/
def Obligations.EffectiveAddressesScaleAndWrap : Prop :=
  ∀ (s : State) (ry : Reg) (off4 : BitVec 4),
    (s.eaWord ry off4).toNat = ((s.reg ry).toNat + 2 * off4.toNat) % 2 ^ 16 ∧
    (s.eaByte ry off4).toNat = ((s.reg ry).toNat + off4.toNat) % 2 ^ 16

/-- R141: LDW loads the big-endian word at an even address and the zero-extended byte at an odd one, and faults out of range. -/
def Obligations.LoadWordFallsBackToByte : Prop :=
  ∀ (rx ry : Reg) (off4 : BitVec 4) (s : State),
    let ea := s.eaWord ry off4
    (ea.getLsbD 0 = false → ea.toNat + 2 ≤ s.cfg.memBytes →
      ∃ t, exec (.ldw rx ry off4) s = .next t ∧
        OnlyRegWritten s t rx (BitVec.ofNat 16 (256 * (s.byteAt ea.toNat).toNat + (s.byteAt (ea.toNat + 1)).toNat)) ∧
        t.ccr = s.ccr ∧ SameMemory s t ∧
        Ends s t (s.pc + 2#16) 0x0000#16 (s.fetchCost + memCost s.cfg.memCost .read ea) none) ∧
    (ea.getLsbD 0 = true → ea.toNat < s.cfg.memBytes →
      ∃ t, exec (.ldw rx ry off4) s = .next t ∧
        OnlyRegWritten s t rx (BitVec.ofNat 16 (s.byteAt ea.toNat).toNat) ∧ t.ccr = s.ccr ∧ SameMemory s t ∧
        Ends s t (s.pc + 2#16) 0x0000#16 (s.fetchCost + memCost s.cfg.memCost .read (ea - 1#16)) none) ∧
    (ea.getLsbD 0 = false → s.cfg.memBytes < ea.toNat + 2 →
      ∃ t, exec (.ldw rx ry off4) s = .next t ∧ MemFaulted s t .load ea) ∧
    (ea.getLsbD 0 = true → s.cfg.memBytes ≤ ea.toNat →
      ∃ t, exec (.ldw rx ry off4) s = .next t ∧ MemFaulted s t .load ea)

/-- R142: STW stores the word at an even address, high byte first, and the low byte at an odd one; it changes no other byte,
register or flag, and faults out of range with memory unchanged. -/
def Obligations.StoreWordFallsBackToByte : Prop :=
  ∀ (rx ry : Reg) (off4 : BitVec 4) (s : State), Memory.wf s.mem →
    let ea := s.eaWord ry off4
    (ea.getLsbD 0 = false → ea.toNat + 2 ≤ s.cfg.memBytes →
      ∃ t, exec (.stw rx ry off4) s = .next t ∧ SameRegs s t ∧ t.ccr = s.ccr ∧
        (t.byteAt ea.toNat).toNat = (s.reg rx).toNat / 256 ∧ (t.byteAt (ea.toNat + 1)).toNat = (s.reg rx).toNat % 256 ∧
        SameMemoryOutside s t ea.toNat 2 ∧
        Ends s t (s.pc + 2#16) 0x0000#16 (s.fetchCost + memCost s.cfg.memCost .write ea) none) ∧
    (ea.getLsbD 0 = true → ea.toNat < s.cfg.memBytes →
      ∃ t, exec (.stw rx ry off4) s = .next t ∧ SameRegs s t ∧ t.ccr = s.ccr ∧
        (t.byteAt ea.toNat).toNat = (s.reg rx).toNat % 256 ∧ SameMemoryOutside s t ea.toNat 1 ∧
        Ends s t (s.pc + 2#16) 0x0000#16
          (s.fetchCost + (memCost s.cfg.memCost .read (ea - 1#16) + memCost s.cfg.memCost .write (ea - 1#16))) none) ∧
    (ea.getLsbD 0 = false → s.cfg.memBytes < ea.toNat + 2 →
      ∃ t, exec (.stw rx ry off4) s = .next t ∧ MemFaulted s t .store ea) ∧
    (ea.getLsbD 0 = true → s.cfg.memBytes ≤ ea.toNat →
      ∃ t, exec (.stw rx ry off4) s = .next t ∧ MemFaulted s t .store ea)

/-- R143: LDB loads the zero-extended byte, at the cost of one read of its word, and faults at or beyond `MEM_BYTES`. -/
def Obligations.LoadByteZeroExtends : Prop :=
  ∀ (rx ry : Reg) (off4 : BitVec 4) (s : State), s.cfg.wf →
    let ea := s.eaByte ry off4
    (ea.toNat < s.cfg.memBytes →
      ∃ t, exec (.ldb rx ry off4) s = .next t ∧
        OnlyRegWritten s t rx (BitVec.ofNat 16 (s.byteAt ea.toNat).toNat) ∧ t.ccr = s.ccr ∧ SameMemory s t ∧
        Ends s t (s.pc + 2#16) 0x0000#16
          (s.fetchCost + memCost s.cfg.memCost .read (BitVec.ofNat 16 (2 * (ea.toNat / 2)))) none) ∧
    (s.cfg.memBytes ≤ ea.toNat →
      ∃ t, exec (.ldb rx ry off4) s = .next t ∧ MemFaulted s t .load ea)

/-- R144: STB stores the low byte and no other, at the cost of a read and a write of its word, and faults at or beyond
`MEM_BYTES` with memory unchanged. -/
def Obligations.StoreByteKeepsOtherBytes : Prop :=
  ∀ (rx ry : Reg) (off4 : BitVec 4) (s : State), s.cfg.wf → Memory.wf s.mem →
    let ea := s.eaByte ry off4
    let even := BitVec.ofNat 16 (2 * (ea.toNat / 2))
    (ea.toNat < s.cfg.memBytes →
      ∃ t, exec (.stb rx ry off4) s = .next t ∧ SameRegs s t ∧ t.ccr = s.ccr ∧
        (t.byteAt ea.toNat).toNat = (s.reg rx).toNat % 256 ∧ SameMemoryOutside s t ea.toNat 1 ∧
        Ends s t (s.pc + 2#16) 0x0000#16
          (s.fetchCost + (memCost s.cfg.memCost .read even + memCost s.cfg.memCost .write even)) none) ∧
    (s.cfg.memBytes ≤ ea.toNat →
      ∃ t, exec (.stb rx ry off4) s = .next t ∧ MemFaulted s t .store ea)

/-! ## Memory interface -/

/-- R41 and R42: a word access errs exactly at an odd address or where the word does not fit in memory; otherwise it costs
`MEM_COST` of its kind and address, a read gives the word whose high byte is at the address, and a write leaves its word there
and changes no other byte. -/
def Obligations.WordAccessErrsExactlyOddOrOutOfRange : Prop :=
  ∀ (s : State) (a v : Word), Memory.wf s.mem →
    (s.readWord a = none ↔ a.toNat % 2 = 1 ∨ s.cfg.memBytes < a.toNat + 2) ∧
    (s.writeWord a v = none ↔ a.toNat % 2 = 1 ∨ s.cfg.memBytes < a.toNat + 2) ∧
    (∀ w c, s.readWord a = some (w, c) → c = memCost s.cfg.memCost .read a ∧
      w.toNat = 256 * (s.byteAt a.toNat).toNat + (s.byteAt (a.toNat + 1)).toNat) ∧
    (∀ s' c, s.writeWord a v = some (s', c) →
      c = memCost s.cfg.memCost .write a ∧ s'.readWord a = some (v, memCost s.cfg.memCost .read a) ∧
      SameMemoryOutside s s' a.toNat 2)

/-- R43 and R44: a byte read gives the byte at its address, at the cost of a word read at the even address; a byte write changes
that byte only, at the cost of a word read and a word write there; both err exactly where the word read does. -/
def Obligations.ByteAccessIsByteOfItsWord : Prop :=
  ∀ (s : State) (a : Word) (b : Byte), Memory.wf s.mem →
    let even := BitVec.ofNat 16 (2 * (a.toNat / 2))
    (s.readByte a = none ↔ s.readWord even = none) ∧ (s.writeByte a b = none ↔ s.readWord even = none) ∧
    (∀ x c, s.readByte a = some (x, c) → x = s.byteAt a.toNat ∧ c = memCost s.cfg.memCost .read even) ∧
    (∀ s' c, s.writeByte a b = some (s', c) →
      c = memCost s.cfg.memCost .read even + memCost s.cfg.memCost .write even ∧ s'.byteAt a.toNat = b ∧
      SameMemoryOutside s s' a.toNat 1)

/-- R47: a program that stores a word and loads its bytes sees the high byte at the even address and the low byte after it. -/
def Obligations.StoredWordShowsHighByteFirst : Prop :=
  ∀ (s s' : State) (a v : Word) (c : Nat), Memory.wf s.mem → s.writeWord a v = some (s', c) →
    (∃ c0, s'.readByte a = some (BitVec.ofNat 8 (v.toNat / 256), c0)) ∧
    (∃ c1, s'.readByte (a + 1#16) = some (BitVec.ofNat 8 (v.toNat % 256), c1))

/-- R45: a long is two words, the high word at the lower address; a long that was written is read back, and the costs add up.
That the second address wraps mod 2^16 is the model's reading (log entry 9). -/
def Obligations.LongsAreTwoWordsHighFirst : Prop :=
  ∀ (s t : State) (a : Word) (v : BitVec 32) (c : Nat), Memory.wf s.mem → s.writeLong a v = (t, some c) →
    (∃ hi lo c1 c2, t.readWord a = some (hi, c1) ∧ t.readWord (a + 2#16) = some (lo, c2) ∧
      v.toNat = 65536 * hi.toNat + lo.toNat ∧ t.readLong a = some (v, c1 + c2)) ∧
    c = memCost s.cfg.memCost .write a + memCost s.cfg.memCost .write (a + 2#16)

/-- R54 and R268: where STW stores into the word that the next step fetches, the next step runs the stored word. -/
def Obligations.StoreIntoNextInstructionTakesEffect : Prop :=
  ∀ (rx ry : Reg) (off4 : BitVec 4) (s t : State),
    Memory.wf s.mem → s.faulted = false → s.pc.getLsbD 0 = false → s.eaWord ry off4 = s.pc + 2#16 →
    (s.pc + 2#16).toNat + 2 ≤ s.cfg.memBytes → exec (.stw rx ry off4) s = .next t →
    step t = exec (decodeWord (s.reg rx)) t

/-- R56: the loader's bulk write puts the first `length` bytes of the buffer at consecutive addresses and changes no other byte.
That it does so only where they fit is the model's choice (log entry 10). -/
def Obligations.CopyBytesLoadsBuffer : Prop :=
  ∀ (s t : State) (addr : Nat) (buffer : List Byte) (length : Nat), Memory.wf s.mem → s.copyBytes addr buffer length = some t →
    (∀ k : Nat, k < length → buffer[k]? = some (t.byteAt (addr + k))) ∧ SameMemoryOutside s t addr length

/-! ## Branches, return and call -/

/-- R164 and R165: BRA is always taken, BRN never. -/
def Obligations.UnconditionalBranches : Prop :=
  ∀ (d : BitVec 8) (s : State),
    (∃ t, exec (.bra d) s = .next t ∧ Branches s t true (displacedTarget s.pc d.toInt)) ∧
    (∃ t, exec (.brn d) s = .next t ∧ Branches s t false (displacedTarget s.pc d.toInt))

/-- R166 to R171: the unsigned and equality conditions. -/
def Obligations.UnsignedAndEqualityBranches : Prop :=
  ∀ (d : BitVec 8) (s : State),
    let target := displacedTarget s.pc d.toInt
    (∃ t, exec (.bhi d) s = .next t ∧ Branches s t (!s.ccr.c && !s.ccr.z) target) ∧
    (∃ t, exec (.bls d) s = .next t ∧ Branches s t (s.ccr.c || s.ccr.z) target) ∧
    (∃ t, exec (.bhs d) s = .next t ∧ Branches s t (!s.ccr.c) target) ∧
    (∃ t, exec (.blo d) s = .next t ∧ Branches s t s.ccr.c target) ∧
    (∃ t, exec (.beq d) s = .next t ∧ Branches s t s.ccr.z target) ∧
    (∃ t, exec (.bne d) s = .next t ∧ Branches s t (!s.ccr.z) target)

/-- R172 to R175: the signed conditions. -/
def Obligations.SignedBranches : Prop :=
  ∀ (d : BitVec 8) (s : State),
    let target := displacedTarget s.pc d.toInt
    let less := s.ccr.n != s.ccr.v
    (∃ t, exec (.bgt d) s = .next t ∧ Branches s t (!s.ccr.z && !less) target) ∧
    (∃ t, exec (.ble d) s = .next t ∧ Branches s t (s.ccr.z || less) target) ∧
    (∃ t, exec (.bge d) s = .next t ∧ Branches s t (!less) target) ∧
    (∃ t, exec (.blt d) s = .next t ∧ Branches s t less target)

/-- R160: after `SUB rx,ry` the conditions compare the operands, unsigned and signed. -/
def Obligations.ConditionsCompareAfterSubtract : Prop :=
  ∀ (rx ry : Reg) (s t : State), exec (.sub rx ry) s = .next t →
    let a := s.reg rx
    let b := s.reg ry
    Cond.higher.taken t.ccr = decide (b.toNat < a.toNat) ∧
    Cond.higherOrSame.taken t.ccr = decide (b.toNat ≤ a.toNat) ∧
    Cond.lower.taken t.ccr = decide (a.toNat < b.toNat) ∧
    Cond.lowerOrSame.taken t.ccr = decide (a.toNat ≤ b.toNat) ∧
    Cond.equal.taken t.ccr = decide (a = b) ∧ Cond.notEqual.taken t.ccr = decide (a ≠ b) ∧
    Cond.greaterThan.taken t.ccr = decide (b.toInt < a.toInt) ∧
    Cond.greaterOrEqual.taken t.ccr = decide (b.toInt ≤ a.toInt) ∧
    Cond.lessThan.taken t.ccr = decide (a.toInt < b.toInt) ∧
    Cond.lessOrEqual.taken t.ccr = decide (a.toInt ≤ b.toInt)

/-- R177: RTS goes to `x[15]` with bit 0 cleared, whatever its low byte is, and changes no register, flag or memory. -/
def Obligations.ReturnGoesToEvenLink : Prop :=
  ∀ (ignored : BitVec 8) (s : State),
    ∃ t, exec (.rts ignored) s = .next t ∧
      Branches s t true (BitVec.ofNat 16 (2 * ((s.reg 15).toNat / 2))) ∧
      ∀ other : BitVec 8, exec (.rts other) s = .next t

/-- R178: JAL writes the return address to `x[15]` and goes to its target; the prefix gives the high part of the offset exactly
where it is not 0 and the mode is `consume`. -/
def Obligations.JumpAndLinkUsesPrefixInConsumeMode : Prop :=
  ∀ (d : BitVec 8) (s : State),
    let target := if s.cfg.jalPrefixMode = .consume ∧ s.immPrefix ≠ 0x0000#16
      then displacedTarget s.pc (256 * s.immPrefix.toNat + d.toNat) else displacedTarget s.pc d.toInt
    ∃ t, exec (.jal d) s = .next t ∧ OnlyRegWritten s t 15 (s.pc + 2#16) ∧ t.ccr = s.ccr ∧ SameMemory s t ∧
      Ends s t target 0x0000#16 (s.fetchCost + 2) none

/-! ## The prefix -/

/-- R190: IMM accumulates and changes no register, flag or memory. -/
def Obligations.ImmAccumulatesPrefix : Prop :=
  ∀ (p : BitVec 12) (s : State),
    ∃ t, exec (.imm p) s = .next t ∧ SameRegs s t ∧ t.ccr = s.ccr ∧ SameMemory s t ∧
      Ends s t (s.pc + 2#16) (BitVec.ofNat 16 (4096 * s.immPrefix.toNat + p.toNat)) s.fetchCost none

/-- R192: a chain of IMM words of any length before MOVI or ADDI gives the immediate that unbounded accumulation and one
truncation would, and the prefix is 0 after. -/
def Obligations.PrefixChainBuildsWideImmediate : Prop :=
  ∀ (chunks : List (BitVec 12)) (rx : Reg) (m : BitVec 8) (s : State), s.immPrefix = 0x0000#16 →
    let wide := 256 * chunks.foldl (fun acc p => 4096 * acc + p.toNat) 0 + m.toNat
    (∃ t, execAll (chunks.map Instr.imm ++ [.movi rx m]) s = .next t ∧ t.reg rx = BitVec.ofNat 16 wide ∧
      t.immPrefix = 0x0000#16) ∧
    (∃ t, execAll (chunks.map Instr.imm ++ [.addi rx m]) s = .next t ∧
      t.reg rx = BitVec.ofNat 16 ((s.reg rx).toNat + wide) ∧ t.immPrefix = 0x0000#16)

/-- R25 and R84: a step that raises no fault leaves the prefix 0 unless the word at the pc is an IMM, and then it leaves the
accumulated prefix. -/
def Obligations.OnlyImmLeavesPrefix : Prop :=
  ∀ s t : State, step s = .next t → t.faulted = false →
    t.immPrefix = (if fieldCls (s.wordAt s.pc) = 0xF#4
      then BitVec.ofNat 16 (4096 * s.immPrefix.toNat + (s.wordAt s.pc).toNat % 4096) else 0x0000#16)

/-! ## Whole-machine rules -/

/-- R21 and R89: an instruction writes no general register but the one R21 gives it. -/
def Obligations.NoOtherRegisterWritten : Prop :=
  ∀ (i : Instr) (s t : State) (q : Reg), exec i s = .next t → destOf i ≠ some q → t.reg q = s.reg q

/-- R24: loads, stores, branches, JAL, RTS, IMM and illegal encodings leave all four flags. -/
def Obligations.OtherInstructionsKeepFlags : Prop :=
  ∀ (i : Instr) (s t : State), exec i s = .next t → writesFlags i = false → t.ccr = s.ccr

/-- R49: no instruction changes a byte of memory but those a store stores, at the address its meaning computes. -/
def Obligations.OnlyStoredBytesChange : Prop :=
  ∀ (i : Instr) (s t : State), Memory.wf s.mem → exec i s = .next t →
    (s.storeTarget i = none → SameMemory s t) ∧
    (∀ ea n, s.storeTarget i = some (ea, n) → SameMemoryOutside s t ea.toNat n)

/-- R269: the table of costs where every word access costs the same, for a step that raises no fault. -/
def Obligations.CostsMatchTable : Prop :=
  ∀ (i : Instr) (s t : State) (c : Nat), s.cfg.memCost = { base := c, table := [] } → s.faulted = false →
    exec i s = .next t → t.faulted = false →
    t.out.cost = some (s.tableCost c i) ∧ t.cycles = addCycles s.cycles (s.tableCost c i)

/-- R26 and R86: a step never makes the counter smaller; it adds the cost it returns where the sum fits in 64 bits; a step that
returns no cost, which is one that faults, adds nothing. -/
def Obligations.CyclesNeverDecrease : Prop :=
  ∀ s t : State, step s = .next t →
    s.cycles.toNat ≤ t.cycles.toNat ∧
    (∀ c, t.out.cost = some c → s.cycles.toNat + c < 2 ^ 64 → t.cycles.toNat = s.cycles.toNat + c) ∧
    (t.out.cost = none → t.cycles = s.cycles ∧ t.faulted = true)

/-- R28 and R231: the block's step does not read the breakpoint, the run/stop signal, `HALT_ON_ILLEGAL` or `MAX_STEPS`, and does
not change them. -/
def Obligations.StepIgnoresController : Prop :=
  ∀ (s : State) (bp : Option Word) (run halt : Bool) (maxSteps : Nat),
    step (s.withController bp run halt maxSteps) = onNext (fun t => t.withController bp run halt maxSteps) (step s)

/-! ## Encoding -/

/-- Decode and encode agree: every well-formed instruction, with every operand at every value, is read back from its word. -/
def Obligations.DecodeInvertsEncode : Prop :=
  ∀ i : Instr, i.wf = true →
    decodeWord (encode i) = i ∧ ∀ rest : List Byte, decode (encodeBytes i ++ rest) = .ok (i, rest)

/-- Every word decodes to a well-formed instruction whose word it is: decoding drops no bit (R60, R76). -/
def Obligations.EncodeInvertsDecode : Prop :=
  ∀ w : Word, (decodeWord w).wf = true ∧ encode (decodeWord w) = w

/-- R76: each of the 65536 words is in exactly one row of the opcode table, which is the row of the instruction the decoder
reads. -/
def Obligations.EveryWordIsInOneRow : Prop :=
  ∀ w : Word, (opcodeTable.filter (fun row => row.holds w)).map (fun row => row.mnemonic) = [(decodeWord w).mnemonic]

/-- Words written out from the encodings of R62 to R69 decode to the instructions they stand for. -/
def Obligations.WrittenOutWordsDecode : Prop :=
  decodeWord 0b0000000100100111#16 = .xor 1 2 ∧ decodeWord 0b0001000000000101#16 = .addi 0 5#8 ∧
  decodeWord 0b1001001100110100#16 = .movi 3 0x34#8 ∧ decodeWord 0b1010000100100001#16 = .ldw 1 2 1#4 ∧
  decodeWord 0b1110011111111101#16 = .bne 0xFD#8 ∧ decodeWord 0b1110111100000010#16 = .jal 2#8 ∧
  decodeWord 0b1111000000010010#16 = .imm 0x012#12 ∧ decodeWord 0b0000000100101000#16 = .reservedAlu 1 2 8#4

/-! ## Disassembler, snapshot and debug controller -/

/-- R210: the disassembler prints the placeholder `DW` exactly for the words on which the dispatcher signals `Illegal`. -/
def Obligations.PlaceholderExactlyForIllegal : Prop :=
  ∀ (addr w : Word) (s t : State), exec (decodeWord w) s = .next t →
    ((disassembleChars addr w).take 3 = ['D', 'W', ' '] ↔ t.out.illegal.isSome = true) ∧
    (t.out.illegal.isSome = true → disassembleChars addr w = ['D', 'W', ' '] ++ hex4 w)

/-- R207: for the selectors 0 to B the target that the disassembler prints is the one a taken branch goes to, and for JAL it is
so where the prefix is 0 (the rule's "exactly when" is stated in this direction only, NOTES.md). -/
def Obligations.PrintedTargetIsExecutedTarget : Prop :=
  ∀ (w : Word) (s t : State), fieldCls w = 0xE#4 → exec (decodeWord w) s = .next t →
    ((fieldCond w).toNat ≤ 11 → t.out.cost = some (s.fetchCost + 2) →
      disassembleChars s.pc w = condText (fieldCond w).toNat ++ [' '] ++ hex4 t.pc) ∧
    (fieldCond w = 0xF#4 → s.immPrefix = 0x0000#16 →
      disassembleChars s.pc w = condText 15 ++ [' '] ++ hex4 t.pc)

/-- R23: the bit positions of ccr that the snapshot shows. -/
def Obligations.SnapshotPacksFlags : Prop :=
  ∀ s : State, s.snapshot.ccr.toNat =
    8 * s.ccr.n.toNat + 4 * s.ccr.c.toNat + 2 * s.ccr.v.toNat + s.ccr.z.toNat

/-- R244 and R248: Step-Into takes one step whatever breakpoint is set, and Step-Out runs to `x[15]` with bit 0 cleared, sampled in
the state of the request. -/
def Obligations.StepIntoAndStepOut : Prop :=
  (∀ (s t : State) (bp : Option Word), step s = .next t → ∃ why, (s.setBreakpoint bp).stepInto = .stopped (t.setBreakpoint bp) why) ∧
  (∀ (s : State) (cancel : Nat → Bool),
    s.stepOut cancel = s.runTo (BitVec.ofNat 16 (2 * ((s.reg 15).toNat / 2))) cancel)

/-- R247: the Step-Over target is the address after the first word that is no IMM, for a chain of any length from the pc. -/
def Obligations.StepOverSkipsPrefixChain : Prop :=
  ∀ (s : State) (n : Nat), n < wordCount →
    (∀ k : Nat, k ≤ n → ∃ w c, s.readWord (s.pc + BitVec.ofNat 16 (2 * k)) = some (w, c) ∧
      (fieldCls w = 0xF#4 ↔ k < n)) →
    s.stepOverTarget = some (s.pc + BitVec.ofNat 16 (2 * n + 2))

/-- R245 and R246, with the order of the checks of D28: a run requested of a block that is not faulted always stops, with a reason.
It has taken k steps, 1 <= k <= `MAX_STEPS`, none of the steps before the k-th gave a reason to stop, and the reason is the first of
the checks that holds after the k-th: the latch, an `Illegal` signal with `HALT_ON_ILLEGAL`, the target, the breakpoint, the bound
(k = `MAX_STEPS`), the cancellation flag. The model's choices in it: the poll of the flag stands after the other checks, after
each step that gives no other reason, under the number of steps before it (log entry 13), and the run/stop signal is set for the run and cleared at its end
(log entry 15). A run requested of a faulted block is in `StepTakenExactlyWhenNotFaulted` (log entry 16). -/
def Obligations.RunStopsForItsReason : Prop :=
  ∀ (s : State) (target : Word) (cancel : Nat → Bool), s.faulted = false → 0 < s.cfg.maxSteps →
    ∃ (k : Nat) (u : State) (why : StopReason),
      s.runTo target cancel = .stopped (u.setRunning false) why ∧
      1 ≤ k ∧ k ≤ s.cfg.maxSteps ∧ stepTimes k (s.setRunning true) = .next u ∧
      (∀ (j : Nat) (v : State), 1 ≤ j → j < k → stepTimes j (s.setRunning true) = .next v →
        ¬ v.MustStop target ∧ cancel (j - 1) = false) ∧
      u.StopsBecause target s.cfg.maxSteps cancel k why
end

