-- ==== Sys2Proof/Laws/State.lean ====
section
/-! SUPPORT. One lemma per field per named update of the state, true by rfl, so that no proof unfolds a record update; and the
register and byte reads through each update. -/

namespace Sys2Proof.Machine

/-! ## setReg -/

@[simp] theorem State.setReg_regs (s : State) (r : Reg) (v : Word) : (s.setReg r v).regs = s.regs.set r.val v := rfl
@[simp] theorem State.setReg_pc (s : State) (r : Reg) (v : Word) : (s.setReg r v).pc = s.pc := rfl
@[simp] theorem State.setReg_ccr (s : State) (r : Reg) (v : Word) : (s.setReg r v).ccr = s.ccr := rfl
@[simp] theorem State.setReg_immPrefix (s : State) (r : Reg) (v : Word) : (s.setReg r v).immPrefix = s.immPrefix := rfl
@[simp] theorem State.setReg_cycles (s : State) (r : Reg) (v : Word) : (s.setReg r v).cycles = s.cycles := rfl
@[simp] theorem State.setReg_faulted (s : State) (r : Reg) (v : Word) : (s.setReg r v).faulted = s.faulted := rfl
@[simp] theorem State.setReg_faultInfo (s : State) (r : Reg) (v : Word) : (s.setReg r v).faultInfo = s.faultInfo := rfl
@[simp] theorem State.setReg_out (s : State) (r : Reg) (v : Word) : (s.setReg r v).out = s.out := rfl
@[simp] theorem State.setReg_breakpoint (s : State) (r : Reg) (v : Word) : (s.setReg r v).breakpoint = s.breakpoint := rfl
@[simp] theorem State.setReg_running (s : State) (r : Reg) (v : Word) : (s.setReg r v).running = s.running := rfl
@[simp] theorem State.setReg_mem (s : State) (r : Reg) (v : Word) : (s.setReg r v).mem = s.mem := rfl
@[simp] theorem State.setReg_cfg (s : State) (r : Reg) (v : Word) : (s.setReg r v).cfg = s.cfg := rfl

/-! ## setCcr -/

@[simp] theorem State.setCcr_regs (s : State) (f : Flags) : (s.setCcr f).regs = s.regs := rfl
@[simp] theorem State.setCcr_pc (s : State) (f : Flags) : (s.setCcr f).pc = s.pc := rfl
@[simp] theorem State.setCcr_ccr (s : State) (f : Flags) : (s.setCcr f).ccr = f := rfl
@[simp] theorem State.setCcr_immPrefix (s : State) (f : Flags) : (s.setCcr f).immPrefix = s.immPrefix := rfl
@[simp] theorem State.setCcr_cycles (s : State) (f : Flags) : (s.setCcr f).cycles = s.cycles := rfl
@[simp] theorem State.setCcr_faulted (s : State) (f : Flags) : (s.setCcr f).faulted = s.faulted := rfl
@[simp] theorem State.setCcr_faultInfo (s : State) (f : Flags) : (s.setCcr f).faultInfo = s.faultInfo := rfl
@[simp] theorem State.setCcr_out (s : State) (f : Flags) : (s.setCcr f).out = s.out := rfl
@[simp] theorem State.setCcr_breakpoint (s : State) (f : Flags) : (s.setCcr f).breakpoint = s.breakpoint := rfl
@[simp] theorem State.setCcr_running (s : State) (f : Flags) : (s.setCcr f).running = s.running := rfl
@[simp] theorem State.setCcr_mem (s : State) (f : Flags) : (s.setCcr f).mem = s.mem := rfl
@[simp] theorem State.setCcr_cfg (s : State) (f : Flags) : (s.setCcr f).cfg = s.cfg := rfl

/-! ## setByte -/

@[simp] theorem State.setByte_regs (s : State) (a : Nat) (v : Byte) : (s.setByte a v).regs = s.regs := rfl
@[simp] theorem State.setByte_pc (s : State) (a : Nat) (v : Byte) : (s.setByte a v).pc = s.pc := rfl
@[simp] theorem State.setByte_ccr (s : State) (a : Nat) (v : Byte) : (s.setByte a v).ccr = s.ccr := rfl
@[simp] theorem State.setByte_immPrefix (s : State) (a : Nat) (v : Byte) : (s.setByte a v).immPrefix = s.immPrefix := rfl
@[simp] theorem State.setByte_cycles (s : State) (a : Nat) (v : Byte) : (s.setByte a v).cycles = s.cycles := rfl
@[simp] theorem State.setByte_faulted (s : State) (a : Nat) (v : Byte) : (s.setByte a v).faulted = s.faulted := rfl
@[simp] theorem State.setByte_faultInfo (s : State) (a : Nat) (v : Byte) : (s.setByte a v).faultInfo = s.faultInfo := rfl
@[simp] theorem State.setByte_out (s : State) (a : Nat) (v : Byte) : (s.setByte a v).out = s.out := rfl
@[simp] theorem State.setByte_breakpoint (s : State) (a : Nat) (v : Byte) : (s.setByte a v).breakpoint = s.breakpoint := rfl
@[simp] theorem State.setByte_running (s : State) (a : Nat) (v : Byte) : (s.setByte a v).running = s.running := rfl
@[simp] theorem State.setByte_mem (s : State) (a : Nat) (v : Byte) : (s.setByte a v).mem = Memory.set s.mem a v := rfl
@[simp] theorem State.setByte_cfg (s : State) (a : Nat) (v : Byte) : (s.setByte a v).cfg = s.cfg := rfl

/-! ## retire -/

@[simp] theorem State.retire_regs (s : State) (pc' p' : Word) (cd : Nat) (tk : Bool) (ill : Option IllegalSignal) : (s.retire pc' p' cd tk ill).regs = s.regs := rfl
@[simp] theorem State.retire_pc (s : State) (pc' p' : Word) (cd : Nat) (tk : Bool) (ill : Option IllegalSignal) : (s.retire pc' p' cd tk ill).pc = pc' := rfl
@[simp] theorem State.retire_ccr (s : State) (pc' p' : Word) (cd : Nat) (tk : Bool) (ill : Option IllegalSignal) : (s.retire pc' p' cd tk ill).ccr = s.ccr := rfl
@[simp] theorem State.retire_immPrefix (s : State) (pc' p' : Word) (cd : Nat) (tk : Bool) (ill : Option IllegalSignal) : (s.retire pc' p' cd tk ill).immPrefix = p' := rfl
@[simp] theorem State.retire_cycles (s : State) (pc' p' : Word) (cd : Nat) (tk : Bool) (ill : Option IllegalSignal) : (s.retire pc' p' cd tk ill).cycles = addCycles s.cycles (s.stepCost cd tk) := rfl
@[simp] theorem State.retire_faulted (s : State) (pc' p' : Word) (cd : Nat) (tk : Bool) (ill : Option IllegalSignal) : (s.retire pc' p' cd tk ill).faulted = s.faulted := rfl
@[simp] theorem State.retire_faultInfo (s : State) (pc' p' : Word) (cd : Nat) (tk : Bool) (ill : Option IllegalSignal) : (s.retire pc' p' cd tk ill).faultInfo = s.faultInfo := rfl
@[simp] theorem State.retire_out (s : State) (pc' p' : Word) (cd : Nat) (tk : Bool) (ill : Option IllegalSignal) : (s.retire pc' p' cd tk ill).out = { cost := some (s.stepCost cd tk), illegal := ill, memFault := none } := rfl
@[simp] theorem State.retire_breakpoint (s : State) (pc' p' : Word) (cd : Nat) (tk : Bool) (ill : Option IllegalSignal) : (s.retire pc' p' cd tk ill).breakpoint = s.breakpoint := rfl
@[simp] theorem State.retire_running (s : State) (pc' p' : Word) (cd : Nat) (tk : Bool) (ill : Option IllegalSignal) : (s.retire pc' p' cd tk ill).running = s.running := rfl
@[simp] theorem State.retire_mem (s : State) (pc' p' : Word) (cd : Nat) (tk : Bool) (ill : Option IllegalSignal) : (s.retire pc' p' cd tk ill).mem = s.mem := rfl
@[simp] theorem State.retire_cfg (s : State) (pc' p' : Word) (cd : Nat) (tk : Bool) (ill : Option IllegalSignal) : (s.retire pc' p' cd tk ill).cfg = s.cfg := rfl

/-! ## raiseMemFault -/

@[simp] theorem State.raiseMemFault_regs (s : State) (k : FaultKind) (a : Word) : (s.raiseMemFault k a).regs = s.regs := rfl
@[simp] theorem State.raiseMemFault_pc (s : State) (k : FaultKind) (a : Word) : (s.raiseMemFault k a).pc = s.pc := rfl
@[simp] theorem State.raiseMemFault_ccr (s : State) (k : FaultKind) (a : Word) : (s.raiseMemFault k a).ccr = s.ccr := rfl
@[simp] theorem State.raiseMemFault_immPrefix (s : State) (k : FaultKind) (a : Word) : (s.raiseMemFault k a).immPrefix = s.immPrefix := rfl
@[simp] theorem State.raiseMemFault_cycles (s : State) (k : FaultKind) (a : Word) : (s.raiseMemFault k a).cycles = s.cycles := rfl
@[simp] theorem State.raiseMemFault_faulted (s : State) (k : FaultKind) (a : Word) : (s.raiseMemFault k a).faulted = true := rfl
@[simp] theorem State.raiseMemFault_faultInfo (s : State) (k : FaultKind) (a : Word) : (s.raiseMemFault k a).faultInfo = some { kind := k, addr := a } := rfl
@[simp] theorem State.raiseMemFault_out (s : State) (k : FaultKind) (a : Word) : (s.raiseMemFault k a).out = { cost := none, illegal := none, memFault := some { kind := k, addr := a } } := rfl
@[simp] theorem State.raiseMemFault_breakpoint (s : State) (k : FaultKind) (a : Word) : (s.raiseMemFault k a).breakpoint = s.breakpoint := rfl
@[simp] theorem State.raiseMemFault_running (s : State) (k : FaultKind) (a : Word) : (s.raiseMemFault k a).running = s.running := rfl
@[simp] theorem State.raiseMemFault_mem (s : State) (k : FaultKind) (a : Word) : (s.raiseMemFault k a).mem = s.mem := rfl
@[simp] theorem State.raiseMemFault_cfg (s : State) (k : FaultKind) (a : Word) : (s.raiseMemFault k a).cfg = s.cfg := rfl

/-! ## doReset -/

@[simp] theorem State.doReset_regs (s : State) : (s.doReset).regs = Vector.replicate 16 0x0000#16 := rfl
@[simp] theorem State.doReset_pc (s : State) : (s.doReset).pc = 0x0000#16 := rfl
@[simp] theorem State.doReset_ccr (s : State) : (s.doReset).ccr = { n := false, c := false, v := false, z := false } := rfl
@[simp] theorem State.doReset_immPrefix (s : State) : (s.doReset).immPrefix = 0x0000#16 := rfl
@[simp] theorem State.doReset_cycles (s : State) : (s.doReset).cycles = 0 := rfl
@[simp] theorem State.doReset_faulted (s : State) : (s.doReset).faulted = false := rfl
@[simp] theorem State.doReset_faultInfo (s : State) : (s.doReset).faultInfo = none := rfl
@[simp] theorem State.doReset_out (s : State) : (s.doReset).out = StepOut.none := rfl
@[simp] theorem State.doReset_breakpoint (s : State) : (s.doReset).breakpoint = none := rfl
@[simp] theorem State.doReset_running (s : State) : (s.doReset).running = false := rfl
@[simp] theorem State.doReset_mem (s : State) : (s.doReset).mem = s.mem := rfl
@[simp] theorem State.doReset_cfg (s : State) : (s.doReset).cfg = s.cfg := rfl

/-! ## setRunning -/

@[simp] theorem State.setRunning_regs (s : State) (b : Bool) : (s.setRunning b).regs = s.regs := rfl
@[simp] theorem State.setRunning_pc (s : State) (b : Bool) : (s.setRunning b).pc = s.pc := rfl
@[simp] theorem State.setRunning_ccr (s : State) (b : Bool) : (s.setRunning b).ccr = s.ccr := rfl
@[simp] theorem State.setRunning_immPrefix (s : State) (b : Bool) : (s.setRunning b).immPrefix = s.immPrefix := rfl
@[simp] theorem State.setRunning_cycles (s : State) (b : Bool) : (s.setRunning b).cycles = s.cycles := rfl
@[simp] theorem State.setRunning_faulted (s : State) (b : Bool) : (s.setRunning b).faulted = s.faulted := rfl
@[simp] theorem State.setRunning_faultInfo (s : State) (b : Bool) : (s.setRunning b).faultInfo = s.faultInfo := rfl
@[simp] theorem State.setRunning_out (s : State) (b : Bool) : (s.setRunning b).out = s.out := rfl
@[simp] theorem State.setRunning_breakpoint (s : State) (b : Bool) : (s.setRunning b).breakpoint = s.breakpoint := rfl
@[simp] theorem State.setRunning_running (s : State) (b : Bool) : (s.setRunning b).running = b := rfl
@[simp] theorem State.setRunning_mem (s : State) (b : Bool) : (s.setRunning b).mem = s.mem := rfl
@[simp] theorem State.setRunning_cfg (s : State) (b : Bool) : (s.setRunning b).cfg = s.cfg := rfl

/-! ## setBreakpoint -/

@[simp] theorem State.setBreakpoint_regs (s : State) (b : Option Word) : (s.setBreakpoint b).regs = s.regs := rfl
@[simp] theorem State.setBreakpoint_pc (s : State) (b : Option Word) : (s.setBreakpoint b).pc = s.pc := rfl
@[simp] theorem State.setBreakpoint_ccr (s : State) (b : Option Word) : (s.setBreakpoint b).ccr = s.ccr := rfl
@[simp] theorem State.setBreakpoint_immPrefix (s : State) (b : Option Word) : (s.setBreakpoint b).immPrefix = s.immPrefix := rfl
@[simp] theorem State.setBreakpoint_cycles (s : State) (b : Option Word) : (s.setBreakpoint b).cycles = s.cycles := rfl
@[simp] theorem State.setBreakpoint_faulted (s : State) (b : Option Word) : (s.setBreakpoint b).faulted = s.faulted := rfl
@[simp] theorem State.setBreakpoint_faultInfo (s : State) (b : Option Word) : (s.setBreakpoint b).faultInfo = s.faultInfo := rfl
@[simp] theorem State.setBreakpoint_out (s : State) (b : Option Word) : (s.setBreakpoint b).out = s.out := rfl
@[simp] theorem State.setBreakpoint_breakpoint (s : State) (b : Option Word) : (s.setBreakpoint b).breakpoint = b := rfl
@[simp] theorem State.setBreakpoint_running (s : State) (b : Option Word) : (s.setBreakpoint b).running = s.running := rfl
@[simp] theorem State.setBreakpoint_mem (s : State) (b : Option Word) : (s.setBreakpoint b).mem = s.mem := rfl
@[simp] theorem State.setBreakpoint_cfg (s : State) (b : Option Word) : (s.setBreakpoint b).cfg = s.cfg := rfl

/-! ## Register reads -/

theorem State.reg_setReg (s : State) (r q : Reg) (v : Word) :
    (s.setReg r v).reg q = if q = r then v else s.reg q := by
  by_cases h : q = r
  · subst h; simp [State.reg]
  · have : r.val ≠ q.val := fun e => h (Fin.ext e.symm)
    simp [State.reg, h, Vector.getElem_set_ne _ _ this]

@[simp] theorem State.reg_setReg_same (s : State) (r : Reg) (v : Word) : (s.setReg r v).reg r = v := by
  simp [State.reg_setReg]

theorem State.reg_setReg_other (s : State) {r q : Reg} (v : Word) (h : q ≠ r) : (s.setReg r v).reg q = s.reg q := by
  simp [State.reg_setReg, h]

@[simp] theorem State.reg_setCcr (s : State) (f : Flags) (q : Reg) : (s.setCcr f).reg q = s.reg q := rfl
@[simp] theorem State.reg_setByte (s : State) (a : Nat) (v : Byte) (q : Reg) : (s.setByte a v).reg q = s.reg q := rfl
@[simp] theorem State.reg_retire (s : State) (pc' p' : Word) (cd : Nat) (tk : Bool) (ill : Option IllegalSignal) (q : Reg) : (s.retire pc' p' cd tk ill).reg q = s.reg q := rfl
@[simp] theorem State.reg_raiseMemFault (s : State) (k : FaultKind) (a : Word) (q : Reg) : (s.raiseMemFault k a).reg q = s.reg q := rfl
@[simp] theorem State.reg_setRunning (s : State) (b : Bool) (q : Reg) : (s.setRunning b).reg q = s.reg q := rfl
@[simp] theorem State.reg_setBreakpoint (s : State) (b : Option Word) (q : Reg) : (s.setBreakpoint b).reg q = s.reg q := rfl
@[simp] theorem State.reg_doReset (s : State) (q : Reg) : s.doReset.reg q = 0x0000#16 := by simp [State.reg]

/-! ## Byte reads -/

@[simp] theorem State.byteAt_setReg (s : State) (r : Reg) (v : Word) (x : Nat) : (s.setReg r v).byteAt x = s.byteAt x := rfl
@[simp] theorem State.byteAt_setCcr (s : State) (f : Flags) (x : Nat) : (s.setCcr f).byteAt x = s.byteAt x := rfl
@[simp] theorem State.byteAt_retire (s : State) (pc' p' : Word) (cd : Nat) (tk : Bool) (ill : Option IllegalSignal) (x : Nat) : (s.retire pc' p' cd tk ill).byteAt x = s.byteAt x := rfl
@[simp] theorem State.byteAt_raiseMemFault (s : State) (k : FaultKind) (a : Word) (x : Nat) : (s.raiseMemFault k a).byteAt x = s.byteAt x := rfl
@[simp] theorem State.byteAt_doReset (s : State) (x : Nat) : (s.doReset).byteAt x = s.byteAt x := rfl
@[simp] theorem State.byteAt_setRunning (s : State) (b : Bool) (x : Nat) : (s.setRunning b).byteAt x = s.byteAt x := rfl
@[simp] theorem State.byteAt_setBreakpoint (s : State) (b : Option Word) (x : Nat) : (s.setBreakpoint b).byteAt x = s.byteAt x := rfl

/-! ## Values that depend on fields an update leaves -/

@[simp] theorem State.npc_setReg (s : State) (r : Reg) (v : Word) : (s.setReg r v).npc = s.npc := rfl
@[simp] theorem State.fetchCost_setReg (s : State) (r : Reg) (v : Word) : (s.setReg r v).fetchCost = s.fetchCost := rfl
@[simp] theorem State.stepCost_setReg (s : State) (r : Reg) (v : Word) (cd : Nat) (tk : Bool) : (s.setReg r v).stepCost cd tk = s.stepCost cd tk := rfl
@[simp] theorem State.npc_setCcr (s : State) (f : Flags) : (s.setCcr f).npc = s.npc := rfl
@[simp] theorem State.fetchCost_setCcr (s : State) (f : Flags) : (s.setCcr f).fetchCost = s.fetchCost := rfl
@[simp] theorem State.stepCost_setCcr (s : State) (f : Flags) (cd : Nat) (tk : Bool) : (s.setCcr f).stepCost cd tk = s.stepCost cd tk := rfl
@[simp] theorem State.npc_setByte (s : State) (a : Nat) (v : Byte) : (s.setByte a v).npc = s.npc := rfl
@[simp] theorem State.fetchCost_setByte (s : State) (a : Nat) (v : Byte) : (s.setByte a v).fetchCost = s.fetchCost := rfl
@[simp] theorem State.stepCost_setByte (s : State) (a : Nat) (v : Byte) (cd : Nat) (tk : Bool) : (s.setByte a v).stepCost cd tk = s.stepCost cd tk := rfl

/-- A state with every field of another is that other. -/
theorem State.ext_fields {s t : State} (h1 : s.regs = t.regs) (h2 : s.pc = t.pc) (h3 : s.ccr = t.ccr)
    (h4 : s.immPrefix = t.immPrefix) (h5 : s.cycles = t.cycles) (h6 : s.faulted = t.faulted)
    (h7 : s.faultInfo = t.faultInfo) (h8 : s.out = t.out) (h9 : s.breakpoint = t.breakpoint)
    (h10 : s.running = t.running) (h11 : s.mem = t.mem) (h12 : s.cfg = t.cfg) : s = t := by
  cases s; cases t; simp_all

end Sys2Proof.Machine
end

