-- ==== Sys2Proof/Laws/Memory.lean ====
section
/-! SUPPORT. The laws of memory: reads after writes, the canonical form, and that equal reads mean equal memories. -/

namespace Sys2Proof.Machine

/-! ## The list -/

theorem Memory.get_cons_entry (k : Nat) (v : Byte) (m : Memory) (x : Nat) :
    Memory.get ((k, v) :: m) x = if x = k then v else Memory.get m x := rfl

/-- An address that no entry names reads as unlisted. -/
theorem Memory.get_of_not_mem {m : Memory} {x : Nat} (h : ∀ cell ∈ m, cell.1 ≠ x) :
    Memory.get m x = Memory.unlisted x := by
  induction m with
  | nil => rfl
  | cons c m ih =>
    have hc : x ≠ c.1 := fun e => h c (by simp) e.symm
    rw [show c = (c.1, c.2) from rfl, Memory.get_cons_entry, if_neg hc]
    exact ih fun d hd => h d (by simp [hd])

/-- Below the first entry of a rising list nothing is listed. -/
theorem Memory.get_of_lt {m : Memory} {x : Nat} (h : ∀ cell ∈ m, x < cell.1) : Memory.get m x = Memory.unlisted x :=
  Memory.get_of_not_mem fun c hc e => by have := h c hc; omega

theorem Memory.get_cons {a : Nat} {v : Byte} {m : Memory} (h : ∀ cell ∈ m, a < cell.1) (x : Nat) :
    Memory.get (Memory.cons a v m) x = if x = a then v else Memory.get m x := by
  unfold Memory.cons
  split
  · next hv =>
    split
    · next hx => subst hx; rw [Memory.get_of_lt h, hv]
    · rfl
  · rfl

theorem Memory.wf_tail {c : Host.Cell} {m : Memory} (h : Memory.wf (c :: m)) : Memory.wf m :=
  ⟨(List.pairwise_cons.mp h.1).2, fun d hd => h.2 d (by simp [hd])⟩

theorem Memory.wf_head {c : Host.Cell} {m : Memory} (h : Memory.wf (c :: m)) : ∀ d ∈ m, c.1 < d.1 :=
  (List.pairwise_cons.mp h.1).1

/-- A read after a write gives the value written, and every other address reads as before. -/
theorem Memory.get_set {m : Memory} (hm : Memory.wf m) (a : Nat) (v : Byte) (x : Nat) :
    Memory.get (Memory.set m a v) x = if x = a then v else Memory.get m x := by
  induction m with
  | nil => exact Memory.get_cons (by simp) x
  | cons c m ih =>
    obtain ⟨k, u⟩ := c
    have hlt : ∀ d ∈ m, k < d.1 := Memory.wf_head hm
    unfold Memory.set
    split
    · next h =>
      refine Memory.get_cons (fun d hd => ?_) x
      rcases List.mem_cons.mp hd with rfl | hd
      · exact h
      · have := hlt d hd; omega
    · split
      · next h1 h2 =>
        subst h2
        rw [Memory.get_cons hlt, Memory.get_cons_entry]
        split <;> simp_all
      · next h1 h2 =>
        rw [Memory.get_cons_entry, Memory.get_cons_entry, ih (Memory.wf_tail hm)]
        by_cases hx : x = k <;> by_cases hx' : x = a <;> simp_all

theorem Memory.mem_cons_of_mem {a : Nat} {v : Byte} {m : Memory} {c : Host.Cell} (h : c ∈ Memory.cons a v m) :
    c = (a, v) ∨ c ∈ m := by
  unfold Memory.cons at h
  split at h
  · exact .inr h
  · exact List.mem_cons.mp h

/-- A write lists no address but its own anew. -/
theorem Memory.mem_set {m : Memory} {a : Nat} {v : Byte} {c : Host.Cell} (h : c ∈ Memory.set m a v) :
    c = (a, v) ∨ c ∈ m := by
  induction m with
  | nil => simpa using Memory.mem_cons_of_mem h
  | cons d m ih =>
    obtain ⟨k, u⟩ := d
    unfold Memory.set at h
    split at h
    · exact Memory.mem_cons_of_mem h
    · split at h
      · exact (Memory.mem_cons_of_mem h).imp_right (List.mem_cons_of_mem _)
      · rcases List.mem_cons.mp h with rfl | h
        · exact .inr (by simp)
        · exact (ih h).imp_right (List.mem_cons_of_mem _)

theorem Memory.cons_wf {a : Nat} {v : Byte} {m : Memory} (hm : Memory.wf m) (h : ∀ cell ∈ m, a < cell.1) :
    Memory.wf (Memory.cons a v m) := by
  unfold Memory.cons
  split
  · exact hm
  · next hv =>
    refine ⟨List.pairwise_cons.mpr ⟨h, hm.1⟩, fun c hc => ?_⟩
    rcases List.mem_cons.mp hc with rfl | hc
    · exact hv
    · exact hm.2 c hc

/-- A write keeps the canonical form. -/
theorem Memory.set_wf {m : Memory} (hm : Memory.wf m) (a : Nat) (v : Byte) : Memory.wf (Memory.set m a v) := by
  induction m with
  | nil => exact Memory.cons_wf hm (by simp)
  | cons c m ih =>
    obtain ⟨k, u⟩ := c
    have hlt : ∀ d ∈ m, k < d.1 := Memory.wf_head hm
    unfold Memory.set
    split
    · next h =>
      refine Memory.cons_wf hm fun d hd => ?_
      rcases List.mem_cons.mp hd with rfl | hd
      · exact h
      · have := hlt d hd; omega
    · split
      · next h1 h2 => exact Memory.cons_wf (Memory.wf_tail hm) (h2 ▸ hlt)
      · next h1 h2 =>
        have ht := ih (Memory.wf_tail hm)
        refine ⟨List.pairwise_cons.mpr ⟨fun d hd => ?_, ht.1⟩, fun d hd => ?_⟩
        · rcases Memory.mem_set hd with rfl | hd
          · show k < a; omega
          · exact hlt d hd
        · rcases List.mem_cons.mp hd with rfl | hd
          · exact hm.2 _ (by simp)
          · exact ht.2 d hd

/-- A write at an address below the bound keeps every listed address below it. -/
theorem Memory.set_below {m : Memory} {bound : Nat} (hm : Memory.below m bound) {a : Nat} (ha : a < bound) (v : Byte) :
    Memory.below (Memory.set m a v) bound := fun c hc => by
  rcases Memory.mem_set hc with rfl | hc
  · exact ha
  · exact hm c hc

/-- Canonical memories that read alike everywhere are equal data. -/
theorem Memory.eq_of_get {m m' : Memory} (hm : Memory.wf m) (hm' : Memory.wf m')
    (h : ∀ x, Memory.get m x = Memory.get m' x) : m = m' := by
  induction m generalizing m' with
  | nil =>
    cases m' with
    | nil => rfl
    | cons c m' =>
      have := h c.1
      rw [show c = (c.1, c.2) from rfl, Memory.get_cons_entry, if_pos rfl] at this
      exact absurd this.symm (hm'.2 c (by simp))
  | cons c m ih =>
    obtain ⟨k, u⟩ := c
    have hu : u ≠ Memory.unlisted k := hm.2 (k, u) (by simp)
    cases m' with
    | nil =>
      have := h k
      rw [Memory.get_cons_entry, if_pos rfl] at this
      exact absurd this hu
    | cons c' m' =>
      obtain ⟨k', u'⟩ := c'
      have hu' : u' ≠ Memory.unlisted k' := hm'.2 (k', u') (by simp)
      have hk : k = k' := by
        rcases Nat.lt_trichotomy k k' with hlt | he | hgt
        · have e := h k
          rw [Memory.get_cons_entry, if_pos rfl, Memory.get_cons_entry, if_neg (by omega),
            Memory.get_of_lt fun d hd => lt_trans hlt (Memory.wf_head hm' d hd)] at e
          exact absurd e hu
        · exact he
        · have e := h k'
          rw [Memory.get_cons_entry, if_neg (by omega), Memory.get_cons_entry, if_pos rfl,
            Memory.get_of_lt fun d hd => lt_trans hgt (Memory.wf_head hm d hd)] at e
          exact absurd e.symm hu'
      subst hk
      have huu : u = u' := by simpa [Memory.get_cons_entry] using h k
      subst huu
      congr 1
      refine ih (Memory.wf_tail hm) (Memory.wf_tail hm') fun x => ?_
      by_cases hx : x = k
      · subst hx
        rw [Memory.get_of_lt (Memory.wf_head hm), Memory.get_of_lt (Memory.wf_head hm')]
      · simpa [Memory.get_cons_entry, hx] using h x

end Sys2Proof.Machine
end

