-- ==== Sys2Proof/Laws/Ops.lean ====
section
/-! SUPPORT. What each shared memory operation of Machine/Ops.lean can do, said once: the error conditions as arithmetic, the value
and cost of a read, and what a write changes. -/

namespace Sys2Proof.Machine

/-! ## Words and bytes -/

theorem toNat_wordOfBytes (hi lo : Byte) : (wordOfBytes hi lo).toNat = 256 * hi.toNat + lo.toNat := by
  unfold wordOfBytes
  rw [BitVec.toNat_append, ← Nat.shiftLeft_add_eq_or_of_lt lo.isLt, Nat.shiftLeft_eq]
  omega

theorem toNat_highByte (w : Word) : (highByte w).toNat = w.toNat / 256 := by
  unfold highByte
  rw [BitVec.extractLsb'_toNat, Nat.shiftRight_eq_div_pow]
  have := w.isLt
  omega

theorem toNat_lowByte (w : Word) : (lowByte w).toNat = w.toNat % 256 := by
  unfold lowByte
  rw [BitVec.extractLsb'_toNat]
  simp

@[simp] theorem highByte_wordOfBytes (hi lo : Byte) : highByte (wordOfBytes hi lo) = hi := by
  apply BitVec.eq_of_toNat_eq
  rw [toNat_highByte, toNat_wordOfBytes]
  omega

@[simp] theorem lowByte_wordOfBytes (hi lo : Byte) : lowByte (wordOfBytes hi lo) = lo := by
  apply BitVec.eq_of_toNat_eq
  rw [toNat_lowByte, toNat_wordOfBytes]
  omega

@[simp] theorem wordOfBytes_high_low (w : Word) : wordOfBytes (highByte w) (lowByte w) = w := by
  apply BitVec.eq_of_toNat_eq
  rw [toNat_wordOfBytes, toNat_highByte, toNat_lowByte]
  omega

/-! ## Parity -/

theorem getLsbD_zero_eq (a : Word) : a.getLsbD 0 = decide (a.toNat % 2 = 1) := by
  simp [BitVec.getLsbD, Nat.testBit_zero]

theorem toNat_and_FFFE (a : Word) : (a &&& 0xFFFE#16).toNat = 2 * (a.toNat / 2) := by
  have h : a &&& 0xFFFE#16 = (a >>> 1) <<< 1 := by
    ext i hi
    rcases i with _ | i
    · simp
    · have : (0xFFFE#16)[i + 1] = true := by
        have : ∀ j : Fin 15, (0xFFFE#16).getLsbD (j.val + 1) = true := by decide
        exact this ⟨i, by omega⟩
      simp [this, BitVec.getLsbD_eq_getElem hi, Nat.add_comm 1 i]
  rw [h, BitVec.toNat_shiftLeft, BitVec.toNat_ushiftRight, Nat.shiftRight_eq_div_pow, Nat.shiftLeft_eq]
  have := a.isLt
  omega

theorem toNat_evenAddr (a : Word) : (evenAddr a).toNat = 2 * (a.toNat / 2) := toNat_and_FFFE a

theorem evenAddr_eq (a : Word) : evenAddr a = BitVec.ofNat 16 (2 * (a.toNat / 2)) := by
  apply BitVec.eq_of_toNat_eq
  have := a.isLt
  rw [toNat_evenAddr, BitVec.toNat_ofNat, Nat.mod_eq_of_lt (by omega)]

theorem returnTarget_eq (x : Word) : returnTarget x = BitVec.ofNat 16 (2 * (x.toNat / 2)) := evenAddr_eq x

theorem getElem_zero_eq (a : Word) : a[0] = decide (a.toNat % 2 = 1) := getLsbD_zero_eq a

/-! ## Error conditions -/

theorem State.wordError_iff (s : State) (a : Word) :
    s.wordError a = true ↔ a.toNat % 2 = 1 ∨ s.cfg.memBytes < a.toNat + 2 := by
  simp [State.wordError, getElem_zero_eq]

theorem State.wordError_false_iff (s : State) (a : Word) :
    s.wordError a = false ↔ a.toNat % 2 = 0 ∧ a.toNat + 2 ≤ s.cfg.memBytes := by
  rw [← Bool.not_eq_true, State.wordError_iff]
  omega

theorem State.readWord_cases (s : State) (a : Word) :
    (s.wordError a = true ∧ s.readWord a = none) ∨
      (s.wordError a = false ∧ s.readWord a = some (s.wordAt a, memCost s.cfg.memCost .read a)) := by
  unfold State.readWord
  cases s.wordError a <;> simp

theorem State.writeWord_cases (s : State) (a v : Word) :
    (s.wordError a = true ∧ s.writeWord a v = none) ∨
      (s.wordError a = false ∧ s.writeWord a v = some (s.setWordAt a v, memCost s.cfg.memCost .write a)) := by
  unfold State.writeWord
  cases s.wordError a <;> simp

/-! ## What a word write changes -/

/-- A state that differs from another in memory only. -/
def SameButMemory (s t : State) : Prop := t = { s with mem := t.mem }

theorem State.setWordAt_sameButMemory (s : State) (a v : Word) : SameButMemory s (s.setWordAt a v) := rfl

theorem State.byteAt_setByte {s : State} (hm : Memory.wf s.mem) (a : Nat) (v : Byte) (x : Nat) :
    (s.setByte a v).byteAt x = if x = a then v else s.byteAt x := Memory.get_set hm a v x

theorem State.byteAt_setWordAt {s : State} (hm : Memory.wf s.mem) (a v : Word) (x : Nat) :
    (s.setWordAt a v).byteAt x =
      if x = a.toNat + 1 then lowByte v else if x = a.toNat then highByte v else s.byteAt x := by
  unfold State.setWordAt
  rw [State.byteAt_setByte (Memory.set_wf hm _ _), State.byteAt_setByte hm]

theorem State.setWordAt_wf {s : State} (hm : Memory.wf s.mem) (a v : Word) : Memory.wf (s.setWordAt a v).mem :=
  Memory.set_wf (Memory.set_wf hm _ _) _ _

theorem State.setWordAt_below {s : State} {a : Word} (v : Word) (hm : Memory.below s.mem s.cfg.memBytes)
    (h : s.wordError a = false) : Memory.below (s.setWordAt a v).mem s.cfg.memBytes := by
  have := (State.wordError_false_iff s a).mp h
  exact Memory.set_below (Memory.set_below hm (by omega) _) (by omega) _

theorem State.wordAt_setWordAt {s : State} (hm : Memory.wf s.mem) (a v : Word) :
    (s.setWordAt a v).wordAt a = v := by
  unfold State.wordAt
  rw [State.byteAt_setWordAt hm, State.byteAt_setWordAt hm]
  simp

/-! ## Byte access -/

theorem State.selectByte_wordAt (s : State) (a : Word) : selectByte a (s.wordAt (evenAddr a)) = s.byteAt a.toNat := by
  unfold selectByte State.wordAt
  have h := getLsbD_zero_eq a
  rcases Nat.mod_two_eq_zero_or_one a.toNat with h0 | h1
  · have : a.getLsbD 0 = false := by rw [h]; simp [h0]
    rw [this, toNat_evenAddr]
    simp only [Bool.false_eq_true, if_false, highByte_wordOfBytes]
    congr 1; omega
  · have : a.getLsbD 0 = true := by rw [h]; simp [h1]
    rw [this, toNat_evenAddr]
    simp only [if_true, lowByte_wordOfBytes]
    congr 1; omega

theorem State.readByte_cases (s : State) (a : Word) :
    (s.wordError (evenAddr a) = true ∧ s.readByte a = none) ∨
      (s.wordError (evenAddr a) = false ∧
        s.readByte a = some (s.byteAt a.toNat, memCost s.cfg.memCost .read (evenAddr a))) := by
  unfold State.readByte
  rcases State.readWord_cases s (evenAddr a) with ⟨h, e⟩ | ⟨h, e⟩
  · exact .inl ⟨h, by rw [e]⟩
  · exact .inr ⟨h, by rw [e, ← State.selectByte_wordAt]⟩

/-- A byte write, where its word can be read, is a word write of the merged word, and costs both. -/
theorem State.writeByte_cases (s : State) (a : Word) (b : Byte) :
    (s.wordError (evenAddr a) = true ∧ s.writeByte a b = none) ∨
      (s.wordError (evenAddr a) = false ∧
        s.writeByte a b = some (s.setWordAt (evenAddr a) (mergeByte a (s.wordAt (evenAddr a)) b),
          memCost s.cfg.memCost .read (evenAddr a) + memCost s.cfg.memCost .write (evenAddr a))) := by
  unfold State.writeByte State.readWord State.writeWord
  cases s.wordError (evenAddr a) <;> simp

/-- A byte write changes the byte at its address and no other. -/
theorem State.byteAt_mergedWrite {s : State} (hm : Memory.wf s.mem) (a : Word) (b : Byte) (x : Nat) :
    (s.setWordAt (evenAddr a) (mergeByte a (s.wordAt (evenAddr a)) b)).byteAt x =
      if x = a.toNat then b else s.byteAt x := by
  rw [State.byteAt_setWordAt hm]
  unfold mergeByte State.wordAt
  have h := getLsbD_zero_eq a
  rw [toNat_evenAddr]
  rcases Nat.mod_two_eq_zero_or_one a.toNat with h0 | h1
  · have : a.getLsbD 0 = false := by rw [h]; simp [h0]
    have e : 2 * (a.toNat / 2) = a.toNat := by omega
    rw [this, e]
    simp only [Bool.false_eq_true, if_false, highByte_wordOfBytes, lowByte_wordOfBytes]
    split
    · next hx => subst hx; simp
    · rfl
  · have : a.getLsbD 0 = true := by rw [h]; simp [h1]
    have e : 2 * (a.toNat / 2) + 1 = a.toNat := by omega
    rw [this, e]
    simp only [if_true, highByte_wordOfBytes, lowByte_wordOfBytes]
    split
    · rfl
    · split
      · next hx => subst hx; rfl
      · rfl

/-- Where a byte lies in memory, its word can be read: the address space has an even number of bytes. -/
theorem State.wordError_evenAddr_iff {s : State} (he : s.cfg.memBytes % 2 = 0) (a : Word) :
    s.wordError (evenAddr a) = true ↔ s.cfg.memBytes ≤ a.toNat := by
  rw [State.wordError_iff, toNat_evenAddr]
  omega

/-! ## Consecutive bytes -/

/-- A bulk write puts each byte at its address, changes no other, and keeps the canonical form. -/
theorem State.byteAt_setBytes (bs : List Byte) {s : State} (hm : Memory.wf s.mem) (addr x : Nat) :
    Memory.wf (s.setBytes addr bs).mem ∧
      (s.setBytes addr bs).byteAt x =
        if addr ≤ x ∧ x < addr + bs.length then bs[x - addr]?.getD 0 else s.byteAt x := by
  induction bs generalizing s addr with
  | nil => exact ⟨hm, by simp [State.setBytes]⟩
  | cons b bs ih =>
    obtain ⟨h1, h2⟩ := ih (s := s.setByte addr b) (Memory.set_wf hm _ _) (addr + 1)
    refine ⟨h1, ?_⟩
    show ((s.setByte addr b).setBytes (addr + 1) bs).byteAt x = _
    rw [h2, State.byteAt_setByte hm]
    simp only [List.length_cons]
    by_cases hx : x = addr
    · subst hx; simp
    · by_cases hy : addr + 1 ≤ x ∧ x < addr + 1 + bs.length
      · obtain ⟨k, rfl⟩ : ∃ k, x = addr + 1 + k := ⟨x - (addr + 1), by omega⟩
        rw [if_pos hy, if_pos (by omega), show addr + 1 + k - (addr + 1) = k by omega,
          show addr + 1 + k - addr = k + 1 by omega]
        simp
      · rw [if_neg hy, if_neg hx, if_neg (by omega)]

/-! ## The counter -/

/-- The counter never goes down, and where the sum fits it is the sum. -/
theorem addCycles_spec (c : BitVec 64) (n : Nat) :
    c.toNat ≤ (addCycles c n).toNat ∧ (c.toNat + n < 2 ^ 64 → (addCycles c n).toNat = c.toNat + n) := by
  have hc := c.isLt
  unfold addCycles
  split
  · next h =>
    rw [BitVec.toNat_add, BitVec.toNat_ofNat]
    omega
  · next h =>
    have hpos : 0 < 2 ^ 64 - c.toNat := by omega
    have := Nat.mod_lt (Config.freeCycles c n) hpos
    rw [BitVec.toNat_ofNat, Nat.mod_eq_of_lt (by omega)]
    omega

end Sys2Proof.Machine
end

