-- ==== Sys2Proof/Laws/Exec.lean ====
section
/-! SUPPORT. What each shared step operation can do, said once: the ends of a step, the ALU, load, store, branch and illegal steps,
and the step itself. -/

namespace Sys2Proof.Machine

/-! ## The ends of a step -/

/-- What every step that raises no fault leaves and sets. -/
theorem State.retire_ends (s : State) (pc' p' : Word) (cd : Nat) (tk : Bool) (ill : Option IllegalSignal) :
    Ends s (s.retire pc' p' cd tk ill) pc' p' (s.stepCost cd tk) ill :=
  ⟨rfl, rfl, rfl, rfl, rfl, rfl, rfl, rfl, rfl⟩

/-- The same end, from a state that differs in registers, flags and memory only. -/
theorem State.retire_ends_of {s u : State} (hu : u = { s with regs := u.regs, ccr := u.ccr, mem := u.mem })
    (pc' p' : Word) (cd : Nat) (tk : Bool) (ill : Option IllegalSignal) {c : Nat} (hc : s.stepCost cd tk = c) :
    Ends s (u.retire pc' p' cd tk ill) pc' p' c ill := by
  rw [hu, ← hc]
  exact ⟨rfl, rfl, rfl, rfl, rfl, rfl, rfl, rfl, rfl⟩

theorem State.raiseMemFault_memFaulted (s : State) (k : FaultKind) (a : Word) : MemFaulted s (s.raiseMemFault k a) k a :=
  ⟨rfl, rfl, rfl, rfl, rfl, rfl, rfl, rfl, rfl, rfl, rfl, rfl⟩

theorem State.onlyRegWritten_setReg (s : State) (r : Reg) (v : Word) : OnlyRegWritten s (s.setReg r v) r v :=
  ⟨s.reg_setReg_same r v, fun _ hq => s.reg_setReg_other v hq⟩

@[simp] theorem State.stepCost_untaken (s : State) (cd : Nat) : s.stepCost cd false = s.fetchCost + cd := by
  simp [State.stepCost]

@[simp] theorem State.stepCost_taken (s : State) (cd : Nat) : s.stepCost cd true = s.fetchCost + cd + 2 := by
  simp [State.stepCost, branchPenalty]

/-! ## The shared steps -/

/-- An ALU step answers next: the engine's result in `rx` only, the flag unit's flags, memory as before. -/
theorem aluStep_next (op : AluOp) (rx : Reg) (b : Word) (ci : Bool) (s : State) :
    ∃ t, aluStep op rx b ci s = .next t ∧ OnlyRegWritten s t rx (op.apply (s.reg rx) b ci).1 ∧
      t.ccr = flagUnit op (s.reg rx) b (op.apply (s.reg rx) b ci).1 (op.apply (s.reg rx) b ci).2 ∧
      SameMemory s t ∧ Ends s t (s.pc + 2#16) 0x0000#16 s.fetchCost none := by
  refine ⟨_, rfl, s.onlyRegWritten_setReg rx _, rfl, fun _ => rfl, ?_⟩
  exact State.retire_ends_of rfl s.npc 0x0000#16 0 false none (s.stepCost_untaken 0)

/-- A load step writes the value read, or raises the load fault. -/
theorem loadStep_cases (rx : Reg) (ea : Word) (read : Option (Word × Nat)) (s : State) :
    (∃ v cd, read = some (v, cd) ∧ loadStep rx ea read s = .next ((s.setReg rx v).retire s.npc 0x0000#16 cd false none)) ∨
      (read = none ∧ loadStep rx ea read s = .next (s.raiseMemFault .load ea)) := by
  cases read with
  | none => exact .inr ⟨rfl, rfl⟩
  | some p => exact .inl ⟨p.1, p.2, rfl, rfl⟩

/-- A load whose read succeeds. -/
theorem loadStep_next (rx : Reg) (ea v : Word) (cd : Nat) (s : State) :
    ∃ t, loadStep rx ea (some (v, cd)) s = .next t ∧ OnlyRegWritten s t rx v ∧ t.ccr = s.ccr ∧ SameMemory s t ∧
      Ends s t (s.pc + 2#16) 0x0000#16 (s.fetchCost + cd) none := by
  refine ⟨_, rfl, s.onlyRegWritten_setReg rx v, rfl, fun _ => rfl, ?_⟩
  exact State.retire_ends_of rfl s.npc 0x0000#16 cd false none (s.stepCost_untaken cd)

theorem loadStep_fault (rx : Reg) (ea : Word) (s : State) :
    ∃ t, loadStep rx ea none s = .next t ∧ MemFaulted s t .load ea := ⟨_, rfl, s.raiseMemFault_memFaulted .load ea⟩

/-- A store step ends with the bytes stored, or raises the store fault. -/
theorem storeStep_cases (ea : Word) (write : Option (State × Nat)) (s : State) :
    (∃ s' cd, write = some (s', cd) ∧ storeStep ea write s = .next (s'.retire s.npc 0x0000#16 cd false none)) ∨
      (write = none ∧ storeStep ea write s = .next (s.raiseMemFault .store ea)) := by
  cases write with
  | none => exact .inr ⟨rfl, rfl⟩
  | some p => exact .inl ⟨p.1, p.2, rfl, rfl⟩

/-- A store whose write succeeds, as a word write. -/
theorem storeStep_next (ea a v : Word) (cd : Nat) (s : State) :
    ∃ t, storeStep ea (some (s.setWordAt a v, cd)) s = .next t ∧ SameRegs s t ∧ t.ccr = s.ccr ∧
      (∀ x, t.byteAt x = (s.setWordAt a v).byteAt x) ∧
      Ends s t (s.pc + 2#16) 0x0000#16 (s.fetchCost + cd) none := by
  refine ⟨_, rfl, fun _ => rfl, rfl, fun _ => rfl, ?_⟩
  exact State.retire_ends_of (s.setWordAt_sameButMemory a v) s.npc 0x0000#16 cd false none (s.stepCost_untaken cd)

theorem storeStep_fault (ea : Word) (s : State) :
    ∃ t, storeStep ea none s = .next t ∧ MemFaulted s t .store ea := ⟨_, rfl, s.raiseMemFault_memFaulted .store ea⟩

/-- A branch step answers next, and its condition decides target and cost. -/
theorem branchStep_next (cond : Cond) (target : Word) (s : State) :
    ∃ t, branchStep cond target s = .next t ∧ Branches s t (cond.taken s.ccr) target := by
  refine ⟨_, rfl, fun _ => rfl, rfl, fun _ => rfl, ?_⟩
  refine State.retire_ends_of rfl _ 0x0000#16 0 _ none ?_
  cases cond.taken s.ccr
  · exact s.stepCost_untaken 0
  · exact s.stepCost_taken 0

/-- The step of a reserved encoding. -/
theorem State.illegalStep_spec (s : State) (w : Word) :
    SameRegs s (s.illegalStep w) ∧ (s.illegalStep w).ccr = s.ccr ∧ SameMemory s (s.illegalStep w) ∧
      Ends s (s.illegalStep w) (s.pc + 2#16) 0x0000#16 s.fetchCost (some { addr := s.pc, word := w }) :=
  ⟨fun _ => rfl, rfl, fun _ => rfl, State.retire_ends_of rfl s.npc 0x0000#16 0 false _ (s.stepCost_untaken 0)⟩

/-! ## Effective reads and writes of LDW, LDB, STW -/

theorem State.readByteZext_cases (s : State) (ea : Word) :
    (s.wordError (evenAddr ea) = true ∧ s.readByteZext ea = none) ∨
      (s.wordError (evenAddr ea) = false ∧ s.readByteZext ea =
        some ((s.byteAt ea.toNat).setWidth 16, memCost s.cfg.memCost .read (evenAddr ea))) := by
  unfold State.readByteZext
  rcases s.readByte_cases ea with ⟨h, e⟩ | ⟨h, e⟩
  · exact .inl ⟨h, by rw [e]⟩
  · exact .inr ⟨h, by rw [e]⟩

/-- Every write of a store instruction that succeeds is one word write, at an address whose word is in memory. -/
theorem State.writeWordOrByte_some {s : State} {ea v : Word} {r : State × Nat} (h : s.writeWordOrByte ea v = some r) :
    ∃ a w, s.wordError a = false ∧ r.1 = s.setWordAt a w := by
  unfold State.writeWordOrByte at h
  split at h
  · rcases s.writeByte_cases ea (lowByte v) with ⟨_, e⟩ | ⟨he, e⟩
    · rw [e] at h; cases h
    · rw [e] at h; cases h; exact ⟨_, _, he, rfl⟩
  · rcases s.writeWord_cases ea v with ⟨_, e⟩ | ⟨he, e⟩
    · rw [e] at h; cases h
    · rw [e] at h; cases h; exact ⟨_, _, he, rfl⟩

theorem State.writeByte_some {s : State} {ea : Word} {b : Byte} {r : State × Nat} (h : s.writeByte ea b = some r) :
    ∃ a w, s.wordError a = false ∧ r.1 = s.setWordAt a w := by
  rcases s.writeByte_cases ea b with ⟨_, e⟩ | ⟨he, e⟩
  · rw [e] at h; cases h
  · rw [e] at h; cases h; exact ⟨_, _, he, rfl⟩

/-! ## What an instruction can do -/

/-- A state that differs in registers, flags and memory only, and in memory by at most one word that lies in memory. -/
def StoresOneWord (s u : State) : Prop :=
  u = { s with regs := u.regs, ccr := u.ccr, mem := u.mem } ∧
    (u.mem = s.mem ∨ ∃ a w, s.wordError a = false ∧ u.mem = (s.setWordAt a w).mem)

/-- The pc a step may leave from an even pc: the next instruction, a displaced target or a return target. -/
theorem branchTarget_even {npc : Word} (h : npc.getLsbD 0 = false) (off : Word) :
    (wordTarget npc off).getLsbD 0 = false := by
  rw [getLsbD_zero_eq] at h ⊢
  have h' := of_decide_eq_false h
  refine decide_eq_false ?_
  unfold wordTarget
  rw [BitVec.toNat_add, BitVec.toNat_mul]
  simp only [BitVec.toNat_ofNat]
  omega

theorem returnTarget_even (x : Word) : (returnTarget x).getLsbD 0 = false := by
  rw [getLsbD_zero_eq, show (returnTarget x).toNat = 2 * (x.toNat / 2) from toNat_and_FFFE x]
  exact decide_eq_false (by omega)

theorem State.npc_even {s : State} (h : s.pc.getLsbD 0 = false) : s.npc.getLsbD 0 = false :=
  branchTarget_even (npc := s.pc) h 1#16

/-- How an instruction's next state comes about: it raises a memory fault, or it changes registers, flags and at most one word of
memory and then retires, with an even pc from an even pc. -/
def FaultsOrRetires (s t : State) : Prop :=
  (∃ k a, t = s.raiseMemFault k a) ∨
    ∃ u pc' p' cd tk ill, t = u.retire pc' p' cd tk ill ∧ StoresOneWord s u ∧
      (s.pc.getLsbD 0 = false → pc'.getLsbD 0 = false)

/-- Retiring after a change of registers and flags. -/
theorem retires_of_sameMem {s u : State} (hu : u = { s with regs := u.regs, ccr := u.ccr, mem := u.mem })
    (hm : u.mem = s.mem) {pc' : Word} (hp : s.pc.getLsbD 0 = false → pc'.getLsbD 0 = false) (p' : Word) (cd : Nat)
    (tk : Bool) (ill : Option IllegalSignal) : FaultsOrRetires s (u.retire pc' p' cd tk ill) :=
  .inr ⟨u, pc', p', cd, tk, ill, rfl, ⟨hu, .inl hm⟩, hp⟩

theorem aluStep_shape {op : AluOp} {rx : Reg} {b : Word} {ci : Bool} {s t : State}
    (h : aluStep op rx b ci s = .next t) : FaultsOrRetires s t := by
  cases h
  refine retires_of_sameMem ?_ ?_ State.npc_even _ _ _ _ <;> rfl

theorem loadStep_shape {rx : Reg} {ea : Word} {read : Option (Word × Nat)} {s t : State}
    (h : loadStep rx ea read s = .next t) : FaultsOrRetires s t := by
  rcases loadStep_cases rx ea read s with ⟨v, cd, _, e⟩ | ⟨_, e⟩
  · rw [e] at h
    cases h
    refine retires_of_sameMem ?_ ?_ State.npc_even _ _ _ _ <;> rfl
  · rw [e] at h
    cases h
    exact .inl ⟨_, _, rfl⟩

theorem storeStep_shape {ea : Word} {write : Option (State × Nat)} {s t : State}
    (hw : ∀ r, write = some r → ∃ a w, s.wordError a = false ∧ r.1 = s.setWordAt a w)
    (h : storeStep ea write s = .next t) : FaultsOrRetires s t := by
  rcases storeStep_cases ea write s with ⟨s', cd, hs, e⟩ | ⟨_, e⟩
  · obtain ⟨a, w, he, hs'⟩ := hw _ hs
    rw [e] at h
    cases h
    simp only at hs'
    subst hs'
    exact .inr ⟨_, _, _, _, _, _, rfl, ⟨rfl, .inr ⟨a, w, he, rfl⟩⟩, State.npc_even⟩
  · rw [e] at h
    cases h
    exact .inl ⟨_, _, rfl⟩

theorem branchStep_shape {cond : Cond} {target : Word} {s t : State}
    (hp : s.pc.getLsbD 0 = false → target.getLsbD 0 = false) (h : branchStep cond target s = .next t) :
    FaultsOrRetires s t := by
  cases h
  refine retires_of_sameMem (s := s) rfl rfl (fun he => ?_) _ _ _ _
  split
  · exact hp he
  · exact State.npc_even he

theorem branchRelative_shape {cond : Cond} {d : BitVec 8} {s t : State} (h : branchRelative cond d s = .next t) :
    FaultsOrRetires s t := branchStep_shape (fun he => branchTarget_even (State.npc_even he) _) h

theorem illegalStep_shape (s : State) (w : Word) : FaultsOrRetires s (s.illegalStep w) :=
  retires_of_sameMem (s := s) rfl rfl State.npc_even _ _ _ _

/-- What every instruction can do. -/
theorem exec_shape {i : Instr} {s t : State} (h : exec i s = .next t) : FaultsOrRetires s t := by
  cases i with
  | add => exact aluStep_shape h
  | sub => exact aluStep_shape h
  | adc => exact aluStep_shape h
  | sbc => exact aluStep_shape h
  | rsub => exact aluStep_shape h
  | and => exact aluStep_shape h
  | or => exact aluStep_shape h
  | xor => exact aluStep_shape h
  | addi => exact aluStep_shape h
  | subi => exact aluStep_shape h
  | adci => exact aluStep_shape h
  | sbci => exact aluStep_shape h
  | rsubi => exact aluStep_shape h
  | andi => exact aluStep_shape h
  | ori => exact aluStep_shape h
  | xori => exact aluStep_shape h
  | movi => cases h; refine retires_of_sameMem ?_ ?_ State.npc_even _ _ _ _ <;> rfl
  | ldw => exact loadStep_shape h
  | stw => exact storeStep_shape (fun _ => State.writeWordOrByte_some) h
  | ldb => exact loadStep_shape h
  | stb => exact storeStep_shape (fun _ => State.writeByte_some) h
  | bra => exact branchRelative_shape h
  | brn => exact branchRelative_shape h
  | bhi => exact branchRelative_shape h
  | bls => exact branchRelative_shape h
  | bhs => exact branchRelative_shape h
  | blo => exact branchRelative_shape h
  | beq => exact branchRelative_shape h
  | bne => exact branchRelative_shape h
  | bgt => exact branchRelative_shape h
  | ble => exact branchRelative_shape h
  | bge => exact branchRelative_shape h
  | blt => exact branchRelative_shape h
  | rts => exact branchStep_shape (fun _ => returnTarget_even _) h
  | jal d =>
    cases h
    refine retires_of_sameMem ?_ ?_ (fun he => ?_) _ _ _ _
    · rfl
    · rfl
    · exact branchTarget_even (State.npc_even he) _
  | imm => cases h; refine retires_of_sameMem ?_ ?_ State.npc_even _ _ _ _ <;> rfl
  | reservedAlu => cases h; exact illegalStep_shape _ _
  | reservedBranch => cases h; exact illegalStep_shape _ _

/-! ## The step -/

theorem State.fetchInstr_cases (s : State) :
    (s.faulted = true ∧ s.fetchInstr = .stuck) ∨
      (s.faulted = false ∧ s.wordError s.pc = true ∧ s.fetchInstr = .latched (s.raiseMemFault .fetch s.pc)) ∨
      (s.faulted = false ∧ s.wordError s.pc = false ∧ s.fetchInstr = .run (decodeWord (s.wordAt s.pc))) := by
  unfold State.fetchInstr
  cases hf : s.faulted
  · rcases s.readWord_cases s.pc with ⟨h, e⟩ | ⟨h, e⟩
    · exact .inr (.inl ⟨rfl, h, by simp [e]⟩)
    · exact .inr (.inr ⟨rfl, h, by simp [e]⟩)
  · exact .inl ⟨rfl, by simp⟩

/-- A step is turned away, is a fetch fault, or is `exec` of the decoded word at the pc. -/
theorem step_cases (s : State) :
    (s.faulted = true ∧ step s = .fault .stuckUntilReset) ∨
      (s.faulted = false ∧ s.wordError s.pc = true ∧ step s = .next (s.raiseMemFault .fetch s.pc)) ∨
      (s.faulted = false ∧ s.wordError s.pc = false ∧ step s = exec (decodeWord (s.wordAt s.pc)) s) := by
  unfold step
  rcases s.fetchInstr_cases with ⟨h, e⟩ | ⟨h, h', e⟩ | ⟨h, h', e⟩
  · exact .inl ⟨h, by rw [e]⟩
  · exact .inr (.inl ⟨h, h', by rw [e]⟩)
  · exact .inr (.inr ⟨h, h', by rw [e]⟩)

end Sys2Proof.Machine
end

