-- ==== Sys2Proof/Laws/Arms.lean ====
section
/-! SUPPORT. Each arm of exec as the shared operation it is, so that a proof about an instruction cites that operation's lemma. -/

namespace Sys2Proof.Machine

variable (s : State)

theorem exec_add (rx ry : Reg) : exec (.add rx ry) s = aluStep .add rx (s.reg ry) s.ccr.c s := rfl
theorem exec_sub (rx ry : Reg) : exec (.sub rx ry) s = aluStep .sub rx (s.reg ry) s.ccr.c s := rfl
theorem exec_adc (rx ry : Reg) : exec (.adc rx ry) s = aluStep .adc rx (s.reg ry) s.ccr.c s := rfl
theorem exec_sbc (rx ry : Reg) : exec (.sbc rx ry) s = aluStep .sbc rx (s.reg ry) s.ccr.c s := rfl
theorem exec_rsub (rx ry : Reg) : exec (.rsub rx ry) s = aluStep .rsub rx (s.reg ry) s.ccr.c s := rfl
theorem exec_and (rx ry : Reg) : exec (.and rx ry) s = aluStep .and rx (s.reg ry) s.ccr.c s := rfl
theorem exec_or (rx ry : Reg) : exec (.or rx ry) s = aluStep .or rx (s.reg ry) s.ccr.c s := rfl
theorem exec_xor (rx ry : Reg) : exec (.xor rx ry) s = aluStep .xor rx (s.reg ry) s.ccr.c s := rfl
theorem exec_addi (rx : Reg) (m : BitVec 8) :
    exec (.addi rx m) s = aluStep .add rx (immOperand s.immPrefix m) false s := rfl
theorem exec_subi (rx : Reg) (m : BitVec 8) :
    exec (.subi rx m) s = aluStep .sub rx (immOperand s.immPrefix m) false s := rfl
theorem exec_adci (rx : Reg) (m : BitVec 8) :
    exec (.adci rx m) s = aluStep .adc rx (immOperand s.immPrefix m) s.ccr.c s := rfl
theorem exec_sbci (rx : Reg) (m : BitVec 8) :
    exec (.sbci rx m) s = aluStep .sbc rx (immOperand s.immPrefix m) s.ccr.c s := rfl
theorem exec_rsubi (rx : Reg) (m : BitVec 8) :
    exec (.rsubi rx m) s = aluStep .rsub rx (immOperand s.immPrefix m) s.ccr.c s := rfl
theorem exec_andi (rx : Reg) (m : BitVec 8) :
    exec (.andi rx m) s = aluStep .and rx (immOperand s.immPrefix m) false s := rfl
theorem exec_ori (rx : Reg) (m : BitVec 8) :
    exec (.ori rx m) s = aluStep .or rx (immOperand s.immPrefix m) false s := rfl
theorem exec_xori (rx : Reg) (m : BitVec 8) :
    exec (.xori rx m) s = aluStep .xor rx (immOperand s.immPrefix m) false s := rfl
theorem exec_movi (rx : Reg) (m : BitVec 8) : exec (.movi rx m) s =
    .next (((s.setReg rx (immOperand s.immPrefix m)).setCcr { s.ccr with c := false }).retire s.npc 0x0000#16 0 false none) :=
  rfl
theorem exec_ldw (rx ry : Reg) (o : BitVec 4) :
    exec (.ldw rx ry o) s = loadStep rx (s.eaWord ry o) (s.readWordOrByte (s.eaWord ry o)) s := rfl
theorem exec_stw (rx ry : Reg) (o : BitVec 4) :
    exec (.stw rx ry o) s = storeStep (s.eaWord ry o) (s.writeWordOrByte (s.eaWord ry o) (s.reg rx)) s := rfl
theorem exec_ldb (rx ry : Reg) (o : BitVec 4) :
    exec (.ldb rx ry o) s = loadStep rx (s.eaByte ry o) (s.readByteZext (s.eaByte ry o)) s := rfl
theorem exec_stb (rx ry : Reg) (o : BitVec 4) :
    exec (.stb rx ry o) s = storeStep (s.eaByte ry o) (s.writeByte (s.eaByte ry o) (lowByte (s.reg rx))) s := rfl
theorem exec_bra (d : BitVec 8) : exec (.bra d) s = branchStep .always (branchTarget s.npc d) s := rfl
theorem exec_brn (d : BitVec 8) : exec (.brn d) s = branchStep .never (branchTarget s.npc d) s := rfl
theorem exec_bhi (d : BitVec 8) : exec (.bhi d) s = branchStep .higher (branchTarget s.npc d) s := rfl
theorem exec_bls (d : BitVec 8) : exec (.bls d) s = branchStep .lowerOrSame (branchTarget s.npc d) s := rfl
theorem exec_bhs (d : BitVec 8) : exec (.bhs d) s = branchStep .higherOrSame (branchTarget s.npc d) s := rfl
theorem exec_blo (d : BitVec 8) : exec (.blo d) s = branchStep .lower (branchTarget s.npc d) s := rfl
theorem exec_beq (d : BitVec 8) : exec (.beq d) s = branchStep .equal (branchTarget s.npc d) s := rfl
theorem exec_bne (d : BitVec 8) : exec (.bne d) s = branchStep .notEqual (branchTarget s.npc d) s := rfl
theorem exec_bgt (d : BitVec 8) : exec (.bgt d) s = branchStep .greaterThan (branchTarget s.npc d) s := rfl
theorem exec_ble (d : BitVec 8) : exec (.ble d) s = branchStep .lessOrEqual (branchTarget s.npc d) s := rfl
theorem exec_bge (d : BitVec 8) : exec (.bge d) s = branchStep .greaterOrEqual (branchTarget s.npc d) s := rfl
theorem exec_blt (d : BitVec 8) : exec (.blt d) s = branchStep .lessThan (branchTarget s.npc d) s := rfl
theorem exec_rts (d : BitVec 8) :
    exec (.rts d) s = branchStep .returnFromSubroutine (returnTarget (s.reg linkReg)) s := rfl
theorem exec_jal (d : BitVec 8) :
    exec (.jal d) s = .next ((s.setReg linkReg s.npc).retire (s.jalTarget d) 0x0000#16 0 true none) := rfl
theorem exec_imm (p : BitVec 12) :
    exec (.imm p) s = .next (s.retire s.npc (accumulatePrefix s.immPrefix p) 0 false none) := rfl
theorem exec_reservedAlu (rx ry : Reg) (f : BitVec 4) :
    exec (.reservedAlu rx ry f) s = .next (s.illegalStep (encode (.reservedAlu rx ry f))) := rfl
theorem exec_reservedBranch (c : BitVec 4) (d : BitVec 8) :
    exec (.reservedBranch c d) s = .next (s.illegalStep (encode (.reservedBranch c d))) := rfl

end Sys2Proof.Machine
end

