-- ==== Sys2Proof/Laws/Controller.lean ====
section
/-! SUPPORT. What the checks of a run and the repeated step can do, said once. -/

namespace Sys2Proof.Machine

/-- The checks after a step find a reason that holds, before which none holds, or there is none and the run goes on. -/
theorem State.stopAfter_cases (target : Word) (maxSteps : Nat) (cancel : Nat → Bool) (k : Nat) (u : State) :
    (∃ why, u.stopAfter target = some why ∧ u.StopsBecause target maxSteps cancel k why) ∨
      (u.stopAfter target = none ∧ ¬ u.MustStop target) := by
  unfold State.stopAfter State.MustStop State.HaltsOnIllegal
  repeat' split
  all_goals simp_all [State.StopsBecause, State.HaltsOnIllegal]

/-- One step more, in front. -/
theorem stepTimes_succ {s t : State} (h : step s = .next t) (k : Nat) : stepTimes (k + 1) s = stepTimes k t := by
  rw [stepTimes, h]

end Sys2Proof.Machine
end

