-- ==== Sys2Proof/Laws/Encoding.lean ====
section
/-! SUPPORT. The fields of a word and the words of the formats as numbers, each field of each format, and the masks of the opcode
table in terms of the fields. -/

namespace Sys2Proof

/-! ## Fields as numbers -/

theorem toNat_fieldCls (w : Word) : (fieldCls w).toNat = w.toNat / 4096 := by
  unfold fieldCls
  rw [BitVec.extractLsb'_toNat, Nat.shiftRight_eq_div_pow]
  have := w.isLt
  omega

theorem toNat_fieldCond (w : Word) : (fieldCond w).toNat = w.toNat / 256 % 16 := by
  unfold fieldCond
  rw [BitVec.extractLsb'_toNat, Nat.shiftRight_eq_div_pow]

theorem val_fieldRx (w : Word) : (fieldRx w).val = w.toNat / 256 % 16 := toNat_fieldCond w

theorem val_fieldRy (w : Word) : (fieldRy w).val = w.toNat / 16 % 16 := by
  unfold fieldRy
  show (w.extractLsb' 4 4).toNat = _
  rw [BitVec.extractLsb'_toNat, Nat.shiftRight_eq_div_pow]

theorem toNat_fieldLo (w : Word) : (fieldLo w).toNat = w.toNat % 16 := by
  unfold fieldLo
  rw [BitVec.extractLsb'_toNat, Nat.shiftRight_eq_div_pow]
  simp

theorem toNat_fieldImm8 (w : Word) : (fieldImm8 w).toNat = w.toNat % 256 := by
  unfold fieldImm8
  rw [BitVec.extractLsb'_toNat, Nat.shiftRight_eq_div_pow]
  simp

theorem toNat_fieldImm12 (w : Word) : (fieldImm12 w).toNat = w.toNat % 4096 := by
  unfold fieldImm12
  rw [BitVec.extractLsb'_toNat, Nat.shiftRight_eq_div_pow]
  simp

/-! ## Words of the formats as numbers -/

/-- Concatenation as arithmetic. -/
theorem toNat_append_eq {n m : Nat} (x : BitVec n) (y : BitVec m) : (x ++ y).toNat = x.toNat * 2 ^ m + y.toNat := by
  rw [BitVec.toNat_append, ← Nat.shiftLeft_add_eq_or_of_lt y.isLt, Nat.shiftLeft_eq]

theorem toNat_packRRN (c : BitVec 4) (rx ry : Reg) (lo : BitVec 4) :
    (packRRN c rx ry lo).toNat = 4096 * c.toNat + 256 * rx.val + 16 * ry.val + lo.toNat := by
  unfold packRRN
  rw [toNat_append_eq, toNat_append_eq, toNat_append_eq]
  simp only [BitVec.toNat_ofFin]
  omega

theorem toNat_packRI (c : BitVec 4) (rx : Reg) (m : BitVec 8) :
    (packRI c rx m).toNat = 4096 * c.toNat + 256 * rx.val + m.toNat := by
  unfold packRI
  rw [toNat_append_eq, toNat_append_eq]
  simp only [BitVec.toNat_ofFin]
  omega

theorem toNat_packB (cond : BitVec 4) (d : BitVec 8) :
    (packB cond d).toNat = 0xE000 + 256 * cond.toNat + d.toNat := by
  unfold packB
  rw [toNat_append_eq, toNat_append_eq]
  simp only [BitVec.toNat_ofNat]
  omega

theorem toNat_packP (p : BitVec 12) : (packP p).toNat = 0xF000 + p.toNat := by
  unfold packP
  rw [toNat_append_eq]
  simp only [BitVec.toNat_ofNat]
  omega

/-! ## Fields of the formats -/

section
variable (c cond lo : BitVec 4) (rx ry : Reg) (m : BitVec 8) (p : BitVec 12)

@[simp] theorem fieldCls_packRRN : fieldCls (packRRN c rx ry lo) = c :=
  BitVec.eq_of_toNat_eq (by rw [toNat_fieldCls, toNat_packRRN]; omega)
@[simp] theorem fieldRx_packRRN : fieldRx (packRRN c rx ry lo) = rx :=
  Fin.ext (by rw [val_fieldRx, toNat_packRRN]; omega)
@[simp] theorem fieldRy_packRRN : fieldRy (packRRN c rx ry lo) = ry :=
  Fin.ext (by rw [val_fieldRy, toNat_packRRN]; omega)
@[simp] theorem fieldLo_packRRN : fieldLo (packRRN c rx ry lo) = lo :=
  BitVec.eq_of_toNat_eq (by rw [toNat_fieldLo, toNat_packRRN]; omega)
@[simp] theorem fieldCls_packRI : fieldCls (packRI c rx m) = c :=
  BitVec.eq_of_toNat_eq (by rw [toNat_fieldCls, toNat_packRI]; omega)
@[simp] theorem fieldRx_packRI : fieldRx (packRI c rx m) = rx :=
  Fin.ext (by rw [val_fieldRx, toNat_packRI]; omega)
@[simp] theorem fieldImm8_packRI : fieldImm8 (packRI c rx m) = m :=
  BitVec.eq_of_toNat_eq (by rw [toNat_fieldImm8, toNat_packRI]; omega)
@[simp] theorem fieldCls_packB : fieldCls (packB cond m) = 0xE#4 :=
  BitVec.eq_of_toNat_eq (by rw [toNat_fieldCls, toNat_packB]; simp only [BitVec.toNat_ofNat]; omega)
@[simp] theorem fieldCond_packB : fieldCond (packB cond m) = cond :=
  BitVec.eq_of_toNat_eq (by rw [toNat_fieldCond, toNat_packB]; omega)
@[simp] theorem fieldImm8_packB : fieldImm8 (packB cond m) = m :=
  BitVec.eq_of_toNat_eq (by rw [toNat_fieldImm8, toNat_packB]; omega)
@[simp] theorem fieldCls_packP : fieldCls (packP p) = 0xF#4 :=
  BitVec.eq_of_toNat_eq (by rw [toNat_fieldCls, toNat_packP]; simp only [BitVec.toNat_ofNat]; omega)
@[simp] theorem fieldImm12_packP : fieldImm12 (packP p) = p :=
  BitVec.eq_of_toNat_eq (by rw [toNat_fieldImm12, toNat_packP]; omega)

end

/-! ## Words and rows by nibbles -/

/-- `w[7:4]` as bits. -/
def nibbleRy (w : Word) : BitVec 4 := w.extractLsb' 4 4

theorem toNat_nibbleRy (w : Word) : (nibbleRy w).toNat = w.toNat / 16 % 16 := val_fieldRy w

/-- Two words are equal when their four nibbles are. -/
theorem word_eq_iff (w w' : Word) :
    w = w' ↔ fieldCls w = fieldCls w' ∧ fieldCond w = fieldCond w' ∧ nibbleRy w = nibbleRy w' ∧ fieldLo w = fieldLo w' := by
  constructor
  · rintro rfl
    exact ⟨rfl, rfl, rfl, rfl⟩
  · rintro ⟨h1, h2, h3, h4⟩
    have e1 := congrArg BitVec.toNat h1
    have e2 := congrArg BitVec.toNat h2
    have e3 := congrArg BitVec.toNat h3
    have e4 := congrArg BitVec.toNat h4
    rw [toNat_fieldCls, toNat_fieldCls] at e1
    rw [toNat_fieldCond, toNat_fieldCond] at e2
    rw [toNat_nibbleRy, toNat_nibbleRy] at e3
    rw [toNat_fieldLo, toNat_fieldLo] at e4
    exact BitVec.eq_of_toNat_eq (by omega)

theorem fieldCls_and (w m : Word) : fieldCls (w &&& m) = fieldCls w &&& fieldCls m := BitVec.extractLsb'_and
theorem fieldCond_and (w m : Word) : fieldCond (w &&& m) = fieldCond w &&& fieldCond m := BitVec.extractLsb'_and
theorem nibbleRy_and (w m : Word) : nibbleRy (w &&& m) = nibbleRy w &&& nibbleRy m := BitVec.extractLsb'_and
theorem fieldLo_and (w m : Word) : fieldLo (w &&& m) = fieldLo w &&& fieldLo m := BitVec.extractLsb'_and

/-- A row of the opcode table holds a word when it does so nibble by nibble. -/
theorem OpcodeRow.holds_iff (row : OpcodeRow) (w : Word) : row.holds w = true ↔
    fieldCls w &&& fieldCls row.mask = fieldCls row.pattern ∧ fieldCond w &&& fieldCond row.mask = fieldCond row.pattern ∧
      nibbleRy w &&& nibbleRy row.mask = nibbleRy row.pattern ∧ fieldLo w &&& fieldLo row.mask = fieldLo row.pattern := by
  unfold OpcodeRow.holds
  rw [beq_iff_eq, word_eq_iff, fieldCls_and, fieldCond_and, nibbleRy_and, fieldLo_and]

end Sys2Proof
end

