-- ==== Sys2Proof/Laws/Flags.lean ====
section
/-! SUPPORT. The ALU engine and the flag unit of Machine/Flags.lean as numbers. -/

namespace Sys2Proof.Machine

theorem toNat_setWidth_ofBool (ci : Bool) : ((BitVec.ofBool ci).setWidth 16).toNat = ci.toNat := by cases ci <;> rfl

/-- The add primitive: the sum mod 2^16 and its carry. -/
theorem addPrimitive_spec (a b : Word) (ci : Bool) :
    (addPrimitive a b ci).1 = BitVec.ofNat 16 (a.toNat + b.toNat + ci.toNat) ∧
      (addPrimitive a b ci).2 = carryOf a b ci := by
  have ha := a.isLt
  have hb := b.isLt
  have h : (addPrimitive a b ci).1 = BitVec.ofNat 16 (a.toNat + b.toNat + ci.toNat) := by
    apply BitVec.eq_of_toNat_eq
    simp only [addPrimitive, BitVec.toNat_add, toNat_setWidth_ofBool, BitVec.toNat_ofNat]
    omega
  refine ⟨h, ?_⟩
  have e : (addPrimitive a b ci).2 =
      if ci then decide ((addPrimitive a b ci).1.toNat ≤ a.toNat) else decide ((addPrimitive a b ci).1.toNat < a.toNat) := rfl
  rw [e, h, BitVec.toNat_ofNat]
  cases ci <;> simp [carryOf] <;> omega

/-- The subtraction through the add primitive: the difference mod 2^16 and its borrow. -/
theorem subPrimitive_spec (a b : Word) (ci : Bool) :
    (subPrimitive a b ci).1 = BitVec.ofInt 16 (a.toNat - b.toNat - ci.toNat) ∧
      (subPrimitive a b ci).2 = borrowOf a b ci := by
  have ha := a.isLt
  have hb := b.isLt
  obtain ⟨h1, h2⟩ := addPrimitive_spec a (~~~b) (!ci)
  have hc : (!ci).toNat = 1 - ci.toNat := by cases ci <;> rfl
  have hc1 : ci.toNat ≤ 1 := by cases ci <;> decide
  rw [BitVec.toNat_not, hc] at h1
  constructor
  · apply BitVec.eq_of_toNat_eq
    show (addPrimitive a (~~~b) (!ci)).1.toNat = _
    rw [h1, BitVec.toNat_ofInt, BitVec.toNat_ofNat]
    omega
  · show (!(addPrimitive a (~~~b) (!ci)).2) = _
    rw [h2, Bool.eq_iff_iff]
    simp only [carryOf, borrowOf, BitVec.toNat_not, hc, Bool.not_eq_true', decide_eq_true_eq, decide_eq_false_iff_not]
    omega

/-- The literal V formula: both operands have one sign and the result the other. -/
theorem literalV_signs (a b r : Word) :
    ((a ^^^ r).msb && (b ^^^ r).msb) = ((a.msb == b.msb) && (a.msb != r.msb)) := by
  simp only [BitVec.msb_xor]
  cases a.msb <;> cases b.msb <;> cases r.msb <;> rfl

/-- On the add primitive the literal V formula is signed overflow. -/
theorem addPrimitive_overflow (a b : Word) (ci : Bool) :
    ((a ^^^ (addPrimitive a b ci).1).msb && (b ^^^ (addPrimitive a b ci).1).msb) =
      overflows (a.toInt + b.toInt + ci.toNat) := by
  have ha := a.isLt
  have hb := b.isLt
  have hc : ci.toNat ≤ 1 := by cases ci <;> decide
  rw [literalV_signs, (addPrimitive_spec a b ci).1]
  simp only [BitVec.msb_eq_decide, BitVec.toInt_eq_toNat_cond, overflows, BitVec.toNat_ofNat]
  rw [Bool.eq_iff_iff]
  simp only [Bool.and_eq_true, beq_iff_eq, bne_iff_ne, decide_eq_true_eq, ne_eq, decide_eq_decide]
  split <;> split <;> omega

theorem toInt_complement (b : Word) : (~~~b).toInt = -1 - b.toInt := by
  have hb := b.isLt
  simp only [BitVec.toInt_eq_toNat_cond, BitVec.toNat_not]
  split <;> split <;> omega

/-- The flag unit's N and Z as numbers. -/
theorem flagUnit_eq (op : AluOp) (a b r : Word) (c : Bool) :
    flagUnit op a b r c =
      { n := decide (r.toInt < 0), c := c, v := (a ^^^ r).msb && (op.overflowOperand b ^^^ r).msb, z := decide (r.toNat = 0) } := by
  have h1 : r.msb = decide (r.toInt < 0) := by
    have := r.isLt
    rw [BitVec.msb_eq_decide, BitVec.toInt_eq_toNat_cond, decide_eq_decide]
    split <;> omega
  have h2 : (r == 0x0000#16) = decide (r.toNat = 0) := by
    rw [Bool.eq_iff_iff]
    simp [BitVec.toNat_eq]
  unfold flagUnit
  rw [h1, h2]

/-- An ALU step, from the engine's result and carry and the V formula's value. -/
theorem aluStep_writes {op : AluOp} {rx : Reg} {b : Word} {ci : Bool} {s : State} {r : Word} {c v : Bool}
    (hr : (op.apply (s.reg rx) b ci).1 = r) (hc : (op.apply (s.reg rx) b ci).2 = c)
    (hv : ((s.reg rx ^^^ r).msb && (op.overflowOperand b ^^^ r).msb) = v) :
    ∃ t, aluStep op rx b ci s = .next t ∧ AluWrites s t rx r c v := by
  obtain ⟨t, h, h1, h2, h3, h4⟩ := aluStep_next op rx b ci s
  refine ⟨t, h, hr ▸ h1, ?_, h3, h4⟩
  rw [h2, hr, hc, flagUnit_eq, hv]

end Sys2Proof.Machine
end

