-- ==== Sys2Proof/Laws/Operands.lean ====
section
/-! SUPPORT. The operand forms of Machine/Operands.lean as numbers. -/

namespace Sys2Proof.Machine

/-- A word shifted left over a narrower field: the or is a sum. -/
theorem shiftLeft_or_setWidth_toNat (p : Word) {n : Nat} (m : BitVec n) (hn : n ≤ 16) :
    ((p <<< n) ||| m.setWidth 16).toNat = (p.toNat * 2 ^ n + m.toNat) % 2 ^ 16 := by
  have e : (p <<< n) ||| m.setWidth 16 = (p <<< n) + m.setWidth 16 := by
    symm
    apply BitVec.add_eq_or_of_and_eq_zero
    apply BitVec.eq_of_getLsbD_eq
    intro i hi
    by_cases h : i < n
    · simp [h]
    · simp [h, BitVec.getLsbD_of_ge m i (Nat.le_of_not_lt h)]
  have hm : m.toNat < 2 ^ 16 := Nat.lt_of_lt_of_le m.isLt (Nat.pow_le_pow_right (by decide) hn)
  rw [e, BitVec.toNat_add, BitVec.toNat_shiftLeft, BitVec.toNat_setWidth, Nat.shiftLeft_eq, Nat.mod_eq_of_lt hm, Nat.mod_add_mod]

/-- The prefixed immediate. -/
theorem immOperand_eq (p : Word) (m : BitVec 8) : immOperand p m = prefixedImmediate p m := by
  apply BitVec.eq_of_toNat_eq
  unfold immOperand prefixedImmediate
  rw [shiftLeft_or_setWidth_toNat p m (by decide), BitVec.toNat_ofNat]
  congr 1
  omega

/-- The accumulated prefix. -/
theorem accumulatePrefix_eq (p : Word) (m : BitVec 12) :
    accumulatePrefix p m = BitVec.ofNat 16 (4096 * p.toNat + m.toNat) := by
  apply BitVec.eq_of_toNat_eq
  unfold accumulatePrefix
  rw [shiftLeft_or_setWidth_toNat p m (by decide), BitVec.toNat_ofNat]
  congr 1
  omega

/-- A displacement from the address after the instruction, as an integer mod 2^16. -/
theorem wordTarget_eq (pc off : Word) {x : Int} (h : (off.toNat : Int) % 65536 = x % 65536) :
    wordTarget (pc + 2#16) off = displacedTarget pc x := by
  apply BitVec.eq_of_toNat_eq
  unfold wordTarget displacedTarget
  rw [BitVec.toNat_ofInt, BitVec.toNat_add, BitVec.toNat_add, BitVec.toNat_mul]
  simp only [BitVec.toNat_ofNat]
  omega

/-- The target of a branch. -/
theorem branchTarget_eq (pc : Word) (d : BitVec 8) : branchTarget (pc + 2#16) d = displacedTarget pc d.toInt := by
  refine wordTarget_eq pc _ ?_
  have h : (d.signExtend 16).toInt = d.toInt := BitVec.toInt_signExtend_of_le (by decide)
  rw [← h, BitVec.toInt_eq_toNat_cond]
  split <;> omega

/-- A branch with a displacement answers next, with its target as a number. -/
theorem branchRelative_next (cond : Cond) (d : BitVec 8) (s : State) :
    ∃ t, branchRelative cond d s = .next t ∧ Branches s t (cond.taken s.ccr) (displacedTarget s.pc d.toInt) := by
  rw [← branchTarget_eq]
  exact branchStep_next cond _ s

end Sys2Proof.Machine
end

