-- ==== Sys2Proof/Laws/PerInstr.lean ====
section
/-! SUPPORT. The per-instruction family EncodingRow: the word of a well-formed instruction lies in the row of the opcode table that
has its mnemonic. -/

namespace Sys2Proof.Laws.EncodingRow

/-- The instruction's word is in its own row of spec/opcode_table.json. -/
def Statement (i : Instr) : Prop :=
  i.wf = true → ∃ row ∈ opcodeTable, row.mnemonic = i.mnemonic ∧ row.holds (encode i) = true

/-- A word whose high nibble is the row's class is in a row that looks at nothing else. -/
theorem holds_of_cls {row : OpcodeRow} {w : Word} (hm : row.mask = 0xF000#16)
    (hp : row.pattern &&& 0xF000#16 = row.pattern) (h : fieldCls w = fieldCls row.pattern) : row.holds w = true := by
  rw [OpcodeRow.holds_iff, hm, h]
  rw [word_eq_iff, fieldCls_and, fieldCond_and, nibbleRy_and, fieldLo_and] at hp
  obtain ⟨h1, h2, h3, h4⟩ := hp
  refine ⟨h1, ?_, ?_, ?_⟩
  · rw [← h2]; simp [fieldCond]
  · rw [← h3]; simp [nibbleRy]
  · rw [← h4]; simp [fieldLo]

/-- A word of class 0 is in a row that looks at its class and func. -/
theorem holds_of_func {row : OpcodeRow} {w : Word} (hm : fieldCls row.mask = 0xF#4 ∧ fieldCond row.mask = 0 ∧
    nibbleRy row.mask = 0 ∧ fieldCond row.pattern = 0 ∧ nibbleRy row.pattern = 0)
    (h : fieldCls w = fieldCls row.pattern) (hf : fieldLo w &&& fieldLo row.mask = fieldLo row.pattern) :
    row.holds w = true := by
  obtain ⟨m1, m2, m3, p2, p3⟩ := hm
  rw [OpcodeRow.holds_iff, m1, m2, m3, p2, p3, h]
  exact ⟨BitVec.and_allOnes (x := fieldCls row.pattern), by simp, by simp, hf⟩

/-- A word of class E is in a row that looks at its class and cond. -/
theorem holds_of_cond {row : OpcodeRow} {w : Word} (hm : fieldCls row.mask = 0xF#4 ∧ nibbleRy row.mask = 0 ∧
    fieldLo row.mask = 0 ∧ nibbleRy row.pattern = 0 ∧ fieldLo row.pattern = 0)
    (h : fieldCls w = fieldCls row.pattern) (hf : fieldCond w &&& fieldCond row.mask = fieldCond row.pattern) :
    row.holds w = true := by
  obtain ⟨m1, m3, m4, p3, p4⟩ := hm
  rw [OpcodeRow.holds_iff, m1, m3, m4, p3, p4, h]
  exact ⟨BitVec.and_allOnes (x := fieldCls row.pattern), hf, by simp, by simp⟩

theorem add (rx ry : Reg) : Statement (.add rx ry) := fun _ =>
  ⟨⟨"ADD", 0x0000#16, 0xF00F#16⟩, by decide, rfl, holds_of_func (by decide) (by rw [encode, fieldCls_packRRN]; rfl)
    (by rw [encode, fieldLo_packRRN]; rfl)⟩

theorem sub (rx ry : Reg) : Statement (.sub rx ry) := fun _ =>
  ⟨⟨"SUB", 0x0001#16, 0xF00F#16⟩, by decide, rfl, holds_of_func (by decide) (by rw [encode, fieldCls_packRRN]; rfl)
    (by rw [encode, fieldLo_packRRN]; rfl)⟩

theorem adc (rx ry : Reg) : Statement (.adc rx ry) := fun _ =>
  ⟨⟨"ADC", 0x0002#16, 0xF00F#16⟩, by decide, rfl, holds_of_func (by decide) (by rw [encode, fieldCls_packRRN]; rfl)
    (by rw [encode, fieldLo_packRRN]; rfl)⟩

theorem sbc (rx ry : Reg) : Statement (.sbc rx ry) := fun _ =>
  ⟨⟨"SBC", 0x0003#16, 0xF00F#16⟩, by decide, rfl, holds_of_func (by decide) (by rw [encode, fieldCls_packRRN]; rfl)
    (by rw [encode, fieldLo_packRRN]; rfl)⟩

theorem rsub (rx ry : Reg) : Statement (.rsub rx ry) := fun _ =>
  ⟨⟨"RSUB", 0x0004#16, 0xF00F#16⟩, by decide, rfl, holds_of_func (by decide) (by rw [encode, fieldCls_packRRN]; rfl)
    (by rw [encode, fieldLo_packRRN]; rfl)⟩

theorem and (rx ry : Reg) : Statement (.and rx ry) := fun _ =>
  ⟨⟨"AND", 0x0005#16, 0xF00F#16⟩, by decide, rfl, holds_of_func (by decide) (by rw [encode, fieldCls_packRRN]; rfl)
    (by rw [encode, fieldLo_packRRN]; rfl)⟩

theorem or (rx ry : Reg) : Statement (.or rx ry) := fun _ =>
  ⟨⟨"OR", 0x0006#16, 0xF00F#16⟩, by decide, rfl, holds_of_func (by decide) (by rw [encode, fieldCls_packRRN]; rfl)
    (by rw [encode, fieldLo_packRRN]; rfl)⟩

theorem xor (rx ry : Reg) : Statement (.xor rx ry) := fun _ =>
  ⟨⟨"XOR", 0x0007#16, 0xF00F#16⟩, by decide, rfl, holds_of_func (by decide) (by rw [encode, fieldCls_packRRN]; rfl)
    (by rw [encode, fieldLo_packRRN]; rfl)⟩

theorem addi (rx : Reg) (imm8 : BitVec 8) : Statement (.addi rx imm8) := fun _ =>
  ⟨⟨"ADDI", 0x1000#16, 0xF000#16⟩, by decide, rfl, holds_of_cls rfl rfl (by rw [encode, fieldCls_packRI]; rfl)⟩

theorem subi (rx : Reg) (imm8 : BitVec 8) : Statement (.subi rx imm8) := fun _ =>
  ⟨⟨"SUBI", 0x2000#16, 0xF000#16⟩, by decide, rfl, holds_of_cls rfl rfl (by rw [encode, fieldCls_packRI]; rfl)⟩

theorem adci (rx : Reg) (imm8 : BitVec 8) : Statement (.adci rx imm8) := fun _ =>
  ⟨⟨"ADCI", 0x3000#16, 0xF000#16⟩, by decide, rfl, holds_of_cls rfl rfl (by rw [encode, fieldCls_packRI]; rfl)⟩

theorem sbci (rx : Reg) (imm8 : BitVec 8) : Statement (.sbci rx imm8) := fun _ =>
  ⟨⟨"SBCI", 0x4000#16, 0xF000#16⟩, by decide, rfl, holds_of_cls rfl rfl (by rw [encode, fieldCls_packRI]; rfl)⟩

theorem rsubi (rx : Reg) (imm8 : BitVec 8) : Statement (.rsubi rx imm8) := fun _ =>
  ⟨⟨"RSUBI", 0x5000#16, 0xF000#16⟩, by decide, rfl, holds_of_cls rfl rfl (by rw [encode, fieldCls_packRI]; rfl)⟩

theorem andi (rx : Reg) (imm8 : BitVec 8) : Statement (.andi rx imm8) := fun _ =>
  ⟨⟨"ANDI", 0x6000#16, 0xF000#16⟩, by decide, rfl, holds_of_cls rfl rfl (by rw [encode, fieldCls_packRI]; rfl)⟩

theorem ori (rx : Reg) (imm8 : BitVec 8) : Statement (.ori rx imm8) := fun _ =>
  ⟨⟨"ORI", 0x7000#16, 0xF000#16⟩, by decide, rfl, holds_of_cls rfl rfl (by rw [encode, fieldCls_packRI]; rfl)⟩

theorem xori (rx : Reg) (imm8 : BitVec 8) : Statement (.xori rx imm8) := fun _ =>
  ⟨⟨"XORI", 0x8000#16, 0xF000#16⟩, by decide, rfl, holds_of_cls rfl rfl (by rw [encode, fieldCls_packRI]; rfl)⟩

theorem movi (rx : Reg) (imm8 : BitVec 8) : Statement (.movi rx imm8) := fun _ =>
  ⟨⟨"MOVI", 0x9000#16, 0xF000#16⟩, by decide, rfl, holds_of_cls rfl rfl (by rw [encode, fieldCls_packRI]; rfl)⟩

theorem ldw (rx ry : Reg) (off4 : BitVec 4) : Statement (.ldw rx ry off4) := fun _ =>
  ⟨⟨"LDW", 0xA000#16, 0xF000#16⟩, by decide, rfl, holds_of_cls rfl rfl (by rw [encode, fieldCls_packRRN]; rfl)⟩

theorem stw (rx ry : Reg) (off4 : BitVec 4) : Statement (.stw rx ry off4) := fun _ =>
  ⟨⟨"STW", 0xB000#16, 0xF000#16⟩, by decide, rfl, holds_of_cls rfl rfl (by rw [encode, fieldCls_packRRN]; rfl)⟩

theorem ldb (rx ry : Reg) (off4 : BitVec 4) : Statement (.ldb rx ry off4) := fun _ =>
  ⟨⟨"LDB", 0xC000#16, 0xF000#16⟩, by decide, rfl, holds_of_cls rfl rfl (by rw [encode, fieldCls_packRRN]; rfl)⟩

theorem stb (rx ry : Reg) (off4 : BitVec 4) : Statement (.stb rx ry off4) := fun _ =>
  ⟨⟨"STB", 0xD000#16, 0xF000#16⟩, by decide, rfl, holds_of_cls rfl rfl (by rw [encode, fieldCls_packRRN]; rfl)⟩

theorem bra (d : BitVec 8) : Statement (.bra d) := fun _ =>
  ⟨⟨"BRA", 0xE000#16, 0xFF00#16⟩, by decide, rfl, holds_of_cond (by decide) (by rw [encode, fieldCls_packB]; rfl)
    (by rw [encode, fieldCond_packB]; rfl)⟩

theorem brn (d : BitVec 8) : Statement (.brn d) := fun _ =>
  ⟨⟨"BRN", 0xE100#16, 0xFF00#16⟩, by decide, rfl, holds_of_cond (by decide) (by rw [encode, fieldCls_packB]; rfl)
    (by rw [encode, fieldCond_packB]; rfl)⟩

theorem bhi (d : BitVec 8) : Statement (.bhi d) := fun _ =>
  ⟨⟨"BHI", 0xE200#16, 0xFF00#16⟩, by decide, rfl, holds_of_cond (by decide) (by rw [encode, fieldCls_packB]; rfl)
    (by rw [encode, fieldCond_packB]; rfl)⟩

theorem bls (d : BitVec 8) : Statement (.bls d) := fun _ =>
  ⟨⟨"BLS", 0xE300#16, 0xFF00#16⟩, by decide, rfl, holds_of_cond (by decide) (by rw [encode, fieldCls_packB]; rfl)
    (by rw [encode, fieldCond_packB]; rfl)⟩

theorem bhs (d : BitVec 8) : Statement (.bhs d) := fun _ =>
  ⟨⟨"BHS", 0xE400#16, 0xFF00#16⟩, by decide, rfl, holds_of_cond (by decide) (by rw [encode, fieldCls_packB]; rfl)
    (by rw [encode, fieldCond_packB]; rfl)⟩

theorem blo (d : BitVec 8) : Statement (.blo d) := fun _ =>
  ⟨⟨"BLO", 0xE500#16, 0xFF00#16⟩, by decide, rfl, holds_of_cond (by decide) (by rw [encode, fieldCls_packB]; rfl)
    (by rw [encode, fieldCond_packB]; rfl)⟩

theorem beq (d : BitVec 8) : Statement (.beq d) := fun _ =>
  ⟨⟨"BEQ", 0xE600#16, 0xFF00#16⟩, by decide, rfl, holds_of_cond (by decide) (by rw [encode, fieldCls_packB]; rfl)
    (by rw [encode, fieldCond_packB]; rfl)⟩

theorem bne (d : BitVec 8) : Statement (.bne d) := fun _ =>
  ⟨⟨"BNE", 0xE700#16, 0xFF00#16⟩, by decide, rfl, holds_of_cond (by decide) (by rw [encode, fieldCls_packB]; rfl)
    (by rw [encode, fieldCond_packB]; rfl)⟩

theorem bgt (d : BitVec 8) : Statement (.bgt d) := fun _ =>
  ⟨⟨"BGT", 0xE800#16, 0xFF00#16⟩, by decide, rfl, holds_of_cond (by decide) (by rw [encode, fieldCls_packB]; rfl)
    (by rw [encode, fieldCond_packB]; rfl)⟩

theorem ble (d : BitVec 8) : Statement (.ble d) := fun _ =>
  ⟨⟨"BLE", 0xE900#16, 0xFF00#16⟩, by decide, rfl, holds_of_cond (by decide) (by rw [encode, fieldCls_packB]; rfl)
    (by rw [encode, fieldCond_packB]; rfl)⟩

theorem bge (d : BitVec 8) : Statement (.bge d) := fun _ =>
  ⟨⟨"BGE", 0xEA00#16, 0xFF00#16⟩, by decide, rfl, holds_of_cond (by decide) (by rw [encode, fieldCls_packB]; rfl)
    (by rw [encode, fieldCond_packB]; rfl)⟩

theorem blt (d : BitVec 8) : Statement (.blt d) := fun _ =>
  ⟨⟨"BLT", 0xEB00#16, 0xFF00#16⟩, by decide, rfl, holds_of_cond (by decide) (by rw [encode, fieldCls_packB]; rfl)
    (by rw [encode, fieldCond_packB]; rfl)⟩

theorem rts (d : BitVec 8) : Statement (.rts d) := fun _ =>
  ⟨⟨"RTS", 0xEE00#16, 0xFF00#16⟩, by decide, rfl, holds_of_cond (by decide) (by rw [encode, fieldCls_packB]; rfl)
    (by rw [encode, fieldCond_packB]; rfl)⟩

theorem jal (d : BitVec 8) : Statement (.jal d) := fun _ =>
  ⟨⟨"JAL", 0xEF00#16, 0xFF00#16⟩, by decide, rfl, holds_of_cond (by decide) (by rw [encode, fieldCls_packB]; rfl)
    (by rw [encode, fieldCond_packB]; rfl)⟩

theorem imm (p : BitVec 12) : Statement (.imm p) := fun _ =>
  ⟨⟨"IMM", 0xF000#16, 0xF000#16⟩, by decide, rfl, holds_of_cls rfl rfl (by rw [encode, fieldCls_packP]; rfl)⟩

theorem reservedAlu (rx ry : Reg) (func : BitVec 4) : Statement (.reservedAlu rx ry func) := fun h =>
  ⟨⟨"RESERVED_ALU", 0x0008#16, 0xF008#16⟩, by decide, rfl, holds_of_func (by decide) (by rw [encode, fieldCls_packRRN]; rfl) (by
    rw [encode, fieldLo_packRRN]
    have : ∀ f : BitVec 4, reservedFunc f = true → f &&& 0x8#4 = 0x8#4 := by decide
    exact this func h)⟩

theorem reservedBranch (cond : BitVec 4) (d : BitVec 8) : Statement (.reservedBranch cond d) := fun h =>
  ⟨⟨"RESERVED_BRANCH", 0xEC00#16, 0xFE00#16⟩, by decide, rfl, holds_of_cond (by decide) (by rw [encode, fieldCls_packB]; rfl) (by
    rw [encode, fieldCond_packB]
    have : ∀ c : BitVec 4, reservedCond c = true → c &&& 0xE#4 = 0xC#4 := by decide
    exact this cond h)⟩

end Sys2Proof.Laws.EncodingRow
end

