-- ==== Sys2Proof/Tests/Slice0.lean ====
section
/-! SUPPORT. Tests: the WellFormed smoke test, words written out from the encodings, vectors of spec/95_test_vectors.md, and for
each obligation with hypotheses a named witness that meets them. -/

namespace Sys2Proof.Tests

open Sys2Proof Sys2Proof.Machine

/-! ## WellFormed smoke test: an ill-formed term for each check (R74) -/

theorem test_wf_refuses_reservedAlu_with_alu_func : Instr.wf (.reservedAlu 1 2 7#4) = false := by decide

theorem test_wf_refuses_reservedBranch_with_condition :
    Instr.wf (.reservedBranch 0xB#4 0#8) = false ∧ Instr.wf (.reservedBranch 0xE#4 0#8) = false := by decide

theorem test_wf_admits_reserved_words :
    Instr.wf (.reservedAlu 1 2 8#4) = true ∧ Instr.wf (.reservedBranch 0xC#4 0#8) = true ∧
      Instr.wf (.reservedBranch 0xD#4 0#8) = true := by decide

/-! ## Words written out bit by bit from R62 to R69 -/

theorem test_decode_aluRegister_words :
    decodeWord 0b0000000111100000#16 = .add 1 14 ∧ decodeWord 0b0000001000110001#16 = .sub 2 3 ∧
      decodeWord 0b0000010001010010#16 = .adc 4 5 ∧ decodeWord 0b0000011001110011#16 = .sbc 6 7 ∧
      decodeWord 0b0000100010010100#16 = .rsub 8 9 ∧ decodeWord 0b0000101010110101#16 = .and 10 11 ∧
      decodeWord 0b0000110011010110#16 = .or 12 13 ∧ decodeWord 0b0000111100000111#16 = .xor 15 0 ∧
      decodeWord 0b0000000100101000#16 = .reservedAlu 1 2 8#4 ∧
      decodeWord 0b0000111111111111#16 = .reservedAlu 15 15 15#4 := by decide

theorem test_decode_immediate_words :
    decodeWord 0b0001000000000101#16 = .addi 0 0x05#8 ∧ decodeWord 0b0010000100000001#16 = .subi 1 0x01#8 ∧
      decodeWord 0b0011001011111111#16 = .adci 2 0xFF#8 ∧ decodeWord 0b0100001110000000#16 = .sbci 3 0x80#8 ∧
      decodeWord 0b0101010001111111#16 = .rsubi 4 0x7F#8 ∧ decodeWord 0b0110010100001111#16 = .andi 5 0x0F#8 ∧
      decodeWord 0b0111011011110000#16 = .ori 6 0xF0#8 ∧ decodeWord 0b1000111100110100#16 = .xori 15 0x34#8 ∧
      decodeWord 0b1001001100110100#16 = .movi 3 0x34#8 := by decide

theorem test_decode_memory_words :
    decodeWord 0b1010000100101111#16 = .ldw 1 2 0xF#4 ∧ decodeWord 0b1011001101000001#16 = .stw 3 4 0x1#4 ∧
      decodeWord 0b1100010101101000#16 = .ldb 5 6 0x8#4 ∧ decodeWord 0b1101011110000010#16 = .stb 7 8 0x2#4 := by decide

theorem test_decode_branch_words :
    decodeWord 0b1110000011111111#16 = .bra 0xFF#8 ∧ decodeWord 0b1110000100000101#16 = .brn 0x05#8 ∧
      decodeWord 0b1110001000000011#16 = .bhi 0x03#8 ∧ decodeWord 0b1110001111111110#16 = .bls 0xFE#8 ∧
      decodeWord 0b1110010000000000#16 = .bhs 0x00#8 ∧ decodeWord 0b1110010100000010#16 = .blo 0x02#8 ∧
      decodeWord 0b1110011011111110#16 = .beq 0xFE#8 ∧ decodeWord 0b1110011111111101#16 = .bne 0xFD#8 ∧
      decodeWord 0b1110100000000001#16 = .bgt 0x01#8 ∧ decodeWord 0b1110100100000001#16 = .ble 0x01#8 ∧
      decodeWord 0b1110101000000001#16 = .bge 0x01#8 ∧ decodeWord 0b1110101100000001#16 = .blt 0x01#8 ∧
      decodeWord 0b1110110000010000#16 = .reservedBranch 0xC#4 0x10#8 ∧
      decodeWord 0b1110110100000000#16 = .reservedBranch 0xD#4 0x00#8 ∧
      decodeWord 0b1110111001111111#16 = .rts 0x7F#8 ∧ decodeWord 0b1110111100000010#16 = .jal 0x02#8 := by decide

theorem test_decode_prefix_words :
    decodeWord 0b1111000000010010#16 = .imm 0x012#12 ∧ decodeWord 0b1111111111111111#16 = .imm 0xFFF#12 := by decide

/-- A single byte holds no instruction, and two bytes are read with the high byte first (R47). -/
theorem test_decode_bytes :
    decode [0x10#8] = .error .truncated ∧ decode [0x10#8, 0x05#8, 0xAA#8] = .ok (.addi 0 5#8, [0xAA#8]) ∧
      decodeTableWord 16 0xEF02 = some (.jal 2#8) := by decide

/-! ## Helpers: a small state with one word at the pc, and checks on the next state -/

/-- Write registers one after another. -/
def putRegs (s : State) : List (Reg × Word) → State
  | [] => s
  | (r, v) :: rest => putRegs (s.setReg r v) rest

/-- Registers, flags, prefix and pc as given, and the word at the pc. -/
def start (w : Word) (regs : List (Reg × Word) := []) (f : Flags := ⟨false, false, false, false⟩) (p : Word := 0)
    (pc : Word := 0) : State :=
  ({ putRegs State.reset regs with pc := pc, ccr := f, immPrefix := p }).placeWord w

/-- Flags from four bits N C V Z. -/
def nczv (n c v z : Bool) : Flags := { n := n, c := c, v := v, z := z }

/-- The step answers a next state with the property. -/
def after (o : Host.Outcome State Fault Refusal) (p : State → Bool) : Bool :=
  match o with
  | .next t => p t
  | .fault _ => false
  | .refused _ => false

/-- The next state, the given state where there is none. -/
def nextOr (s : State) (o : Host.Outcome State Fault Refusal) : State :=
  match o with
  | .next t => t
  | .fault _ => s
  | .refused _ => s

/-- One ALU vector of L2.1: result, flags, pc 2, prefix 0 and cost 1. -/
def aluVector (s : State) (rx : Reg) (r : Word) (f : Flags) : Bool :=
  after (step s) fun t =>
    t.reg rx == r && t.ccr == f && t.pc == 2#16 && t.immPrefix == 0#16 && t.out.cost == some 1

/-- One branch vector of L2.5: the pc and the cost. -/
def branchVector (s : State) (pc' : Word) (cost : Nat) : Bool :=
  after (step s) fun t => t.pc == pc' && t.out.cost == some cost && t.ccr == s.ccr

/-- The flags with C set only. -/
def carrySet : Flags := nczv false true false false

/-- The memory of L2.3: bytes 12 34 56 78 from 0x0100 on. -/
def loaded (w : Word) (regs : List (Reg × Word)) : State :=
  ((start w regs nczv0 0 0x0200#16).setWordAt 0x0100#16 0x1234#16).setWordAt 0x0102#16 0x5678#16
where
  /-- All flags 0. -/
  nczv0 : Flags := nczv false false false false

/-- A state of the 16-byte machine of L2.7. -/
def tiny (w : Word) (regs : List (Reg × Word) := []) (pc : Word := 0) : State :=
  { start w regs (pc := pc) with cfg := { Config.suggested with memBytes := 16 } }

/-- The bytes 0x0100 to 0x0103. -/
def window (t : State) : List Byte := [t.byteAt 0x100, t.byteAt 0x101, t.byteAt 0x102, t.byteAt 0x103]

/-! ## ALU (vectors A1 to A49 of L2.1) -/

theorem test_addi_signed_overflow_A2 :
    aluVector (start 0x1001#16 [(0, 0x7FFF#16)]) 0 0x8000#16 (nczv true false true false) = true := by decide
theorem test_addi_ignores_carry_A4 :
    aluVector (start 0x1001#16 [(0, 0xFFFF#16)] carrySet) 0 0#16 (nczv false true false true) = true := by decide
theorem test_subi_overflow_A6 :
    aluVector (start 0x2101#16 [(1, 0x8000#16)]) 1 0x7FFF#16 (nczv false false true false) = true := by decide
theorem test_subi_borrow_A7 :
    aluVector (start 0x2105#16 [(1, 3#16)] carrySet) 1 0xFFFE#16 (nczv true true false false) = true := by decide
theorem test_adci_wrap_A9 :
    aluVector (start 0x3100#16 [(1, 0xFFFF#16)] carrySet) 1 0#16 (nczv false true false true) = true := by decide
theorem test_adci_prefix_A10 :
    aluVector (start 0x31FF#16 [(1, 0xFFFF#16)] carrySet 0x0FF#16) 1 0xFFFF#16 (nczv true true false false) = true := by decide
theorem test_sbci_borrow_A14 :
    aluVector (start 0x4205#16 [(2, 5#16)] carrySet) 2 0xFFFF#16 (nczv true true false false) = true := by decide
theorem test_sbci_overflow_A16 :
    aluVector (start 0x4200#16 [(2, 0x8000#16)] carrySet) 2 0x7FFF#16 (nczv false false true false) = true := by decide
theorem test_rsubi_keeps_carry_A17 :
    aluVector (start 0x5305#16 [(3, 3#16)] carrySet) 3 2#16 (nczv false true false false) = true := by decide
theorem test_rsubi_literal_v_A18 :
    aluVector (start 0x5300#16 [(3, 1#16)]) 3 0xFFFF#16 (nczv true false true false) = true := by decide
theorem test_andi_clears_carry_A20 :
    aluVector (start 0x640F#16 [(4, 0x00FF#16)] carrySet) 4 0x000F#16 (nczv false false false false) = true := by decide
theorem test_ori_A23 :
    aluVector (start 0x7501#16 [(5, 0x8000#16)] carrySet) 5 0x8001#16 (nczv true false false false) = true := by decide
theorem test_xori_literal_v_A26 :
    aluVector (start 0x8600#16 [(6, 0x8000#16)] (p := 0x080#16)) 6 0#16 (nczv false false true true) = true := by decide
theorem test_xori_clears_carry_A27 :
    aluVector (start 0x86FF#16 [(6, 0x00FF#16)] carrySet) 6 0#16 (nczv false false false true) = true := by decide
theorem test_add_A29 :
    aluVector (start 0x0010#16 [(0, 0x8000#16), (1, 0x8000#16)]) 0 0#16 (nczv false true true true) = true := by decide
theorem test_sub_ignores_carry_A32 :
    aluVector (start 0x0111#16 [(1, 0x1234#16)] carrySet) 1 0#16 (nczv false false false true) = true := by decide
theorem test_sub_A33 :
    aluVector (start 0x0121#16 [(1, 0x7FFF#16), (2, 0xFFFF#16)]) 1 0x8000#16 (nczv true true true false) = true := by decide
theorem test_adc_A36 :
    aluVector (start 0x0122#16 [(1, 0xFFFE#16), (2, 1#16)] carrySet) 1 0#16 (nczv false true false true) = true := by decide
theorem test_sbc_A38 :
    aluVector (start 0x0113#16 [(1, 7#16)] carrySet) 1 0xFFFF#16 (nczv true true false false) = true := by decide
theorem test_rsub_A40 :
    aluVector (start 0x0124#16 [(1, 3#16), (2, 5#16)] carrySet) 1 2#16 (nczv false true false false) = true := by decide
theorem test_rsub_literal_v_A41 :
    aluVector (start 0x0124#16 [(1, 1#16), (2, 0x8000#16)]) 1 0x7FFF#16 (nczv false false false false) = true := by decide
theorem test_and_A43 :
    aluVector (start 0x0125#16 [(1, 0x8000#16), (2, 0x8000#16)] carrySet) 1 0x8000#16 (nczv true true false false) = true := by
  decide
theorem test_or_A46 :
    aluVector (start 0x0126#16 [(1, 0x00F0#16), (2, 0x8001#16)]) 1 0x80F1#16 (nczv true false false false) = true := by decide
theorem test_xor_A49 :
    aluVector (start 0x0117#16 [(1, 0x8001#16)] carrySet) 1 0#16 (nczv false true true true) = true := by decide

/-! ## Move, load and store (vectors M and S of L2.2 and L2.3) -/

theorem test_movi_M1 :
    aluVector (start 0x9334#16 [] (nczv true true true false) 0x012#16) 3 0x1234#16 (nczv true false true false) = true := by
  decide
theorem test_movi_M4 :
    aluVector (start 0x9700#16 [] (nczv true true true true)) 7 0#16 (nczv true false true true) = true := by decide
theorem test_ldw_S1 :
    after (step (loaded 0xA121#16 [(2, 0x0100#16)])) (fun t => t.reg 1 == 0x5678#16 && t.out.cost == some 2) = true := by decide
theorem test_ldw_odd_S2 :
    after (step (loaded 0xA120#16 [(2, 0x0101#16)])) (fun t => t.reg 1 == 0x0034#16 && t.out.cost == some 2) = true := by decide
theorem test_ldb_S4 :
    after (step (loaded 0xC120#16 [(2, 0x0100#16)])) (fun t => t.reg 1 == 0x0012#16 && t.out.cost == some 2) = true := by decide
theorem test_ldb_S6 :
    after (step (loaded 0xC12F#16 [(2, 0x00F4#16)])) (fun t => t.reg 1 == 0x0078#16 && t.out.cost == some 2) = true := by decide
theorem test_stw_S8 :
    after (step (loaded 0xB320#16 [(2, 0x0100#16), (3, 0xABCD#16)]))
      (fun t => window t == [0xAB#8, 0xCD#8, 0x56#8, 0x78#8] && t.out.cost == some 2) = true := by decide
theorem test_stw_odd_S9 :
    after (step (loaded 0xB320#16 [(2, 0x0101#16), (3, 0xABCD#16)]))
      (fun t => window t == [0x12#8, 0xCD#8, 0x56#8, 0x78#8] && t.out.cost == some 3) = true := by decide
theorem test_stb_S10 :
    after (step (loaded 0xD620#16 [(2, 0x0100#16), (6, 0x00AB#16)]))
      (fun t => window t == [0xAB#8, 0x34#8, 0x56#8, 0x78#8] && t.out.cost == some 3) = true := by decide
theorem test_stb_S11 :
    after (step (loaded 0xD621#16 [(2, 0x0100#16), (6, 0x12AB#16)]))
      (fun t => window t == [0x12#8, 0xAB#8, 0x56#8, 0x78#8] && t.out.cost == some 3) = true := by decide

/-! ## Branches, return, call and prefix (L2.4 to L2.6) -/

/-- The values of ccr, written N*8 + C*4 + V*2 + Z, for which a condition is taken. -/
def takenFor (cond : Cond) : List Nat :=
  (List.range 16).filter fun k => cond.taken (nczv (k.testBit 3) (k.testBit 2) (k.testBit 1) (k.testBit 0))

theorem test_condition_table_unsigned :
    takenFor .higher = [0, 2, 8, 10] ∧ takenFor .lowerOrSame = [1, 3, 4, 5, 6, 7, 9, 11, 12, 13, 14, 15] ∧
      takenFor .higherOrSame = [0, 1, 2, 3, 8, 9, 10, 11] ∧ takenFor .lower = [4, 5, 6, 7, 12, 13, 14, 15] ∧
      takenFor .equal = [1, 3, 5, 7, 9, 11, 13, 15] ∧ takenFor .notEqual = [0, 2, 4, 6, 8, 10, 12, 14] := by decide

theorem test_condition_table_signed :
    takenFor .greaterThan = [0, 4, 10, 14] ∧ takenFor .lessOrEqual = [1, 2, 3, 5, 6, 7, 8, 9, 11, 12, 13, 15] ∧
      takenFor .greaterOrEqual = [0, 1, 4, 5, 10, 11, 14, 15] ∧ takenFor .lessThan = [2, 3, 6, 7, 8, 9, 12, 13] ∧
      takenFor .never = [] := by decide

theorem test_bra_B1 : branchVector (start 0xE080#16) 0xFF02#16 3 = true := by decide
theorem test_bra_wraps_B4 : branchVector (start 0xE000#16 (pc := 0xFFFE#16)) 0x0000#16 3 = true := by decide
theorem test_brn_B5 : branchVector (start 0xE105#16 (pc := 4)) 0x0006#16 1 = true := by decide
theorem test_bhi : branchVector (start 0xE203#16 (pc := 0x10)) 0x0018#16 3 = true := by decide
theorem test_bls : branchVector (start 0xE3FE#16 [] (nczv false false false true) (pc := 0x10)) 0x000E#16 3 = true := by decide
theorem test_bhs : branchVector (start 0xE400#16 (pc := 0x10)) 0x0012#16 3 = true := by decide
theorem test_blo : branchVector (start 0xE502#16 [] carrySet (pc := 0x10)) 0x0016#16 3 = true := by decide
theorem test_beq_B6 : branchVector (start 0xE6FE#16 [] (nczv false false false true) (pc := 0x10)) 0x000E#16 3 = true := by
  decide
theorem test_beq_B7 : branchVector (start 0xE6FE#16 (pc := 0x10)) 0x0012#16 1 = true := by decide
theorem test_bne : branchVector (start 0xE7FD#16 (pc := 8)) 0x0004#16 3 = true := by decide
theorem test_bgt : branchVector (start 0xE801#16 (pc := 0x10)) 0x0014#16 3 = true := by decide
theorem test_ble : branchVector (start 0xE901#16 [] (nczv true false false false) (pc := 0x10)) 0x0014#16 3 = true := by decide
theorem test_bge : branchVector (start 0xEA01#16 [] (nczv true false true false) (pc := 0x10)) 0x0014#16 3 = true := by decide
theorem test_blt : branchVector (start 0xEB01#16 [] (nczv false false true false) (pc := 0x10)) 0x0014#16 3 = true := by decide
theorem test_rts_B9 : branchVector (start 0xEE7F#16 [(15, 0x0105#16)] (pc := 0xA)) 0x0104#16 3 = true := by decide
theorem test_jal_B10 :
    after (step (start 0xEF02#16 (pc := 2))) (fun t => t.pc == 8#16 && t.reg 15 == 4#16 && t.out.cost == some 3) = true := by decide
/-- J1 and J4: the prefix gives the high part in `consume` mode only. -/
theorem test_jal_prefix_J1_J4 :
    after (step (start 0xEF00#16 (p := 0x0FF#16) (pc := 2))) (fun t => t.pc == 0xFE04#16 && t.immPrefix == 0#16) = true ∧
      after (step { start 0xEF00#16 (p := 0x0FF#16) (pc := 2) with cfg := { Config.suggested with jalPrefixMode := .ignore } })
        (fun t => t.pc == 4#16 && t.immPrefix == 0#16) = true := by decide
theorem test_imm_P11_P12 :
    after (step (start 0xFABC#16)) (fun t => t.immPrefix == 0x0ABC#16 && t.pc == 2#16) = true ∧
      after (step (start 0xF456#16 (p := 0x0123#16))) (fun t => t.immPrefix == 0x3456#16) = true := by decide
/-- P2: a chain of two prefixes before MOV. -/
theorem test_prefix_chain_P2 :
    after (execAll [.imm 0x123#12, .imm 0x456#12, .movi 0 0x78#8] State.reset)
      (fun t => t.reg 0 == 0x5678#16 && t.immPrefix == 0#16) = true := by decide

/-! ## Illegal encodings and memory faults (L2.7) -/

theorem test_illegal_E1 :
    after (step (start 0x0128#16 (p := 5))) (fun t => t.out.illegal == some ⟨0#16, 0x0128#16⟩ && t.pc == 2#16 &&
      t.immPrefix == 0#16 && t.out.cost == some 1 && t.faulted == false) = true := by decide
theorem test_illegal_E2 :
    after (step (start 0xEC10#16)) (fun t => t.out.illegal == some ⟨0#16, 0xEC10#16⟩ && t.pc == 2#16) = true := by decide
theorem test_fetch_fault_E4 :
    after (step (tiny 0#16 [] 0x10#16)) (fun t => t.faultInfo == some ⟨.fetch, 0x10#16⟩ && t.pc == 0x10#16 &&
      t.cycles == 0#64 && t.faulted) = true := by decide
theorem test_load_fault_E6_E7 :
    after (step (tiny 0xA011#16 [(1, 0xE#16)])) (fun t => t.faultInfo == some ⟨.load, 0x10#16⟩ && t.pc == 0#16) = true ∧
      after (step (tiny 0xC01F#16 [(1, 0xE#16)])) (fun t => t.faultInfo == some ⟨.load, 0x1D#16⟩) = true := by decide
theorem test_store_fault_E9 :
    after (step (tiny 0xD010#16 [(0, 0xAB#16), (1, 0x10#16)])) (fun t => t.faultInfo == some ⟨.store, 0x10#16⟩ &&
      t.mem == (tiny 0xD010#16).mem) = true := by decide
theorem test_store_last_byte_E10 :
    after (step (tiny 0xB011#16 [(0, 0xAB#16), (1, 0xD#16)])) (fun t => t.byteAt 15 == 0xAB#8 && t.out.cost == some 3 &&
      t.faulted == false) = true := by decide
/-- E12: a faulted block takes no step, and reset clears the latch. -/
theorem test_stuck_until_reset_E12 :
    step (State.raiseMemFault State.reset .load 0x10#16) = .fault .stuckUntilReset ∧
      (State.raiseMemFault State.reset .load 0x10#16).doReset = State.reset := ⟨rfl, by decide⟩

/-! ## Memory: the canonical form -/

theorem test_write_of_unlisted_value_removes_entry :
    Memory.set [(3, 0x55#8), (7, 0x66#8)] 3 0x00#8 = [(7, 0x66#8)] ∧
      Memory.set [(3, 0x55#8), (7, 0x66#8)] 5 0x11#8 = [(3, 0x55#8), (5, 0x11#8), (7, 0x66#8)] := by decide

/-- R45: a long has its high word at the lower address. -/
theorem test_long_high_word_first :
    ((State.reset.writeLong 0x10#16 0x12345678#32).1.readLong 0x10#16) = some (0x12345678#32, 2) ∧
      (State.reset.writeLong 0x10#16 0x12345678#32).1.byteAt 0x10 = 0x12#8 := by decide

/-! ## Disassembler (L2.8) -/

theorem test_disassemble_operands :
    disassemble 0#16 0x0EF0#16 = "ADD SP,R15" ∧ disassemble 0#16 0x5FFF#16 = "RSUB R15,#0xFF" ∧
      disassemble 0#16 0x9334#16 = "MOV R3,#0x34" ∧ disassemble 0#16 0xBFEF#16 = "STW R15,[SP+0x1E]" ∧
      disassemble 0#16 0xC523#16 = "LDB R5,[R2+0x03]" ∧ disassemble 0#16 0xF012#16 = "IMM #0x012" := by decide

theorem test_disassemble_branches :
    disassemble 8#16 0xE7FD#16 = "BNE 0x0004" ∧ disassemble 0xFFFE#16 0xE07F#16 = "BRA 0x00FE" ∧
      disassemble 0x20#16 0xEBFC#16 = "BLT 0x001A" ∧ disassemble 2#16 0xEF02#16 = "JAL 0x0008" ∧
      disassemble 0#16 0xEE7F#16 = "RTS" ∧ disassemble 0#16 0xEDFF#16 = "DW 0xEDFF" := by decide

theorem test_disassemble_read_error : (tiny 0#16).disassembleAt 0x11#16 = "DW ????" ∧ (tiny 0#16).disassembleAt 0x10#16 = "DW ????" := by
  decide

/-! ## Debug controller (L2.9) -/

/-- The state a request ended in and why. -/
def ended (r : RequestResult) (p : State → StopReason → Bool) : Bool :=
  match r with
  | .stopped s why => p s why
  | .walkNeverEnds _ => false

/-- D2: Step-Over of a call surfaces only the state after it. -/
theorem test_step_over_call_D2 :
    ended (((((start 0xEF02#16 [(0, 5#16)] (pc := 2)).setWordAt 8#16 0x0000#16).setWordAt 0xA#16 0xEE00#16)).stepOver
      (fun _ => false)) (fun t why => why == .target && t.pc == 4#16 && t.reg 0 == 0xA#16 && t.reg 15 == 4#16) = true := by decide

/-- D5: the chain of prefixes is walked. -/
theorem test_step_over_target_D5 :
    (((start 0xF001#16).setWordAt 2#16 0xF012#16).setWordAt 4#16 0x9334#16).stepOverTarget = some 6#16 := by decide

/-- D7: an illegal encoding ends the run where `HALT_ON_ILLEGAL` is true. -/
theorem test_halt_on_illegal_D7 :
    ended ({ start 0x0128#16 with cfg := { Config.suggested with haltOnIllegal := true } }.runTo 0x40#16 (fun _ => false))
      (fun t why => why == .illegal && t.pc == 2#16) = true := by decide

/-! ## Every table row decodes to its instruction and runs as the first instruction after reset -/

/-- The lowest word of every row, from the row's pattern, runs after reset and is the row's instruction. -/
theorem test_every_row_runs_from_reset :
    opcodeTable.all (fun row =>
      (decodeTableWord 16 row.pattern.toNat).map Instr.mnemonic == some row.mnemonic &&
        after (step (State.reset.withFetchWord 16 row.pattern.toNat)) (fun t => t.faulted == false)) = true := by decide

/-! ## Witnesses: for each obligation with hypotheses, states and operands that meet all of them -/

theorem next_nextOr {o : Host.Outcome State Fault Refusal} (s : State) (h : after o (fun _ => true) = true) :
    o = .next (nextOr s o) := by
  cases o with
  | next t => rfl
  | fault r => cases h
  | refused r => cases h

/-- A faulted state that meets the invariant. -/
theorem witness_ResetStateMeetsInvariant : (State.reset.raiseMemFault .fetch 0xFFFE#16).Inv := by decide

/-- A step that stores, from a state that meets the invariant. -/
theorem witness_EveryStepKeepsInvariant :
    ∃ s t : State, s.Inv ∧ step s = .next t ∧ t.mem ≠ s.mem :=
  ⟨loaded 0xB320#16 [(2, 0x0101#16), (3, 0xABCD#16)], _, by decide, next_nextOr State.reset (by decide), by decide⟩

/-- A load fault and a fetch fault from states that meet the invariant. -/
theorem witness_EveryStepKeepsInvariant_faults :
    ∃ s t s' t' : State, s.Inv ∧ step s = .next t ∧ t.faulted = true ∧ s'.Inv ∧ step s' = .next t' ∧ t'.faulted = true :=
  ⟨tiny 0xA011#16 [(1, 0xE#16)], _, { State.reset with cfg := { Config.suggested with memBytes := 16 }, pc := 0x10#16 }, _,
    by decide, next_nextOr State.reset (by decide), by decide, by decide, next_nextOr State.reset (by decide), by decide⟩

/-- The last word of memory, at the top of the address space. -/
theorem witness_StepRunsDecodedInstruction :
    ∃ (s : State) (i : Instr), s.faulted = false ∧ s.pc.getLsbD 0 = false ∧ s.pc.toNat + 2 ≤ s.cfg.memBytes ∧
      decode [s.byteAt s.pc.toNat, s.byteAt (s.pc.toNat + 1)] = .ok (i, []) ∧ s.pc = 0xFFFE#16 :=
  ⟨start 0xE000#16 (pc := 0xFFFE#16), .bra 0#8, by decide, by decide, by decide, by rfl, by decide⟩

theorem witness_FetchBeyondMemoryFaults :
    ∃ s : State, s.faulted = false ∧ s.cfg.memBytes < s.pc.toNat + 2 := ⟨tiny 0#16 [] 0x10#16, by decide, by decide⟩

theorem witness_MemFaultIsPrecise :
    (∃ s t : State, s.faulted = false ∧ step s = .next t ∧ t.faulted = true) ∧
      ∃ (s : State) (a : Word) (r : Word × Nat), s.readWord (evenAddr a) = some r ∧ a = 0xFFFF#16 :=
  ⟨⟨tiny 0xD010#16 [(1, 0x10#16)], _, by decide, next_nextOr State.reset (by decide), by decide⟩,
    State.reset, 0xFFFF#16, (0#16, 1), by decide, rfl⟩

theorem witness_StepTakenExactlyWhenNotFaulted :
    (∃ s : State, s.faulted = false) ∧ (∃ s : State, s.faulted = true ∧ 0 < s.cfg.maxSteps) ∧
      ∃ s t : State, s.copyBytes 2 [0x12#8] 1 = some t ∧ s.faulted = true :=
  ⟨⟨State.reset, rfl⟩, ⟨State.reset.raiseMemFault .store 0x10#16, rfl, by decide⟩,
    State.reset.raiseMemFault .store 0x10#16, _, rfl, rfl⟩

/-- One state for each of the four cases. -/
theorem witness_FaultNamesFailingAccess :
    (∃ s t : State, s.faulted = false ∧ exec (.ldw 0 1 1#4) s = .next t ∧ t.faulted = true) ∧
      (∃ s t : State, s.faulted = false ∧ exec (.ldb 0 1 0#4) s = .next t ∧ t.faulted = true) ∧
      (∃ s t : State, s.faulted = false ∧ exec (.stw 0 1 0#4) s = .next t ∧ t.faulted = true) ∧
      ∃ s t : State, s.faulted = false ∧ exec (.stb 0 1 0#4) s = .next t ∧ t.faulted = true :=
  ⟨⟨tiny 0#16 [(1, 14#16)], _, by decide, next_nextOr State.reset (by decide), by decide⟩,
    ⟨tiny 0#16 [(1, 16#16)], _, by decide, next_nextOr State.reset (by decide), by decide⟩,
    ⟨tiny 0#16 [(1, 17#16)], _, by decide, next_nextOr State.reset (by decide), by decide⟩,
    ⟨tiny 0#16 [(1, 16#16)], _, by decide, next_nextOr State.reset (by decide), by decide⟩⟩

theorem witness_ReservedEncodingsSignalIllegal :
    reservedFunc 8#4 = true ∧ reservedFunc 15#4 = true ∧ reservedCond 0xC#4 = true ∧ reservedCond 0xD#4 = true := by decide

/-- The four clauses at the end of a memory of 16 bytes: the addresses 14, 15, 16 and 17; and the first two at the top of the
address space. -/
theorem witness_LoadWordFallsBackToByte :
    (∃ s : State, let ea := s.eaWord 2 0#4; ea.getLsbD 0 = false ∧ ea.toNat + 2 ≤ s.cfg.memBytes ∧ ea = 14#16) ∧
      (∃ s : State, let ea := s.eaWord 2 0#4; ea.getLsbD 0 = true ∧ ea.toNat < s.cfg.memBytes ∧ ea = 15#16) ∧
      (∃ s : State, let ea := s.eaWord 2 0#4; ea.getLsbD 0 = false ∧ s.cfg.memBytes < ea.toNat + 2 ∧ ea = 16#16) ∧
      (∃ s : State, let ea := s.eaWord 2 0#4; ea.getLsbD 0 = true ∧ s.cfg.memBytes ≤ ea.toNat ∧ ea = 17#16) ∧
      (∃ s : State, let ea := s.eaWord 2 0#4; ea.getLsbD 0 = false ∧ ea.toNat + 2 ≤ s.cfg.memBytes ∧ ea = 0xFFFE#16) ∧
      ∃ s : State, let ea := s.eaWord 2 0#4; ea.getLsbD 0 = true ∧ ea.toNat < s.cfg.memBytes ∧ ea = 0xFFFF#16 :=
  ⟨⟨tiny 0#16 [(2, 14#16)], by decide⟩, ⟨tiny 0#16 [(2, 15#16)], by decide⟩, ⟨tiny 0#16 [(2, 16#16)], by decide⟩,
    ⟨tiny 0#16 [(2, 17#16)], by decide⟩, ⟨start 0#16 [(2, 0xFFFE#16)], by decide⟩, start 0#16 [(2, 0xFFFF#16)], by decide⟩

theorem witness_StoreWordFallsBackToByte :
    (∃ s : State, Memory.wf s.mem ∧
      let ea := s.eaWord 2 0#4; ea.getLsbD 0 = false ∧ ea.toNat + 2 ≤ s.cfg.memBytes ∧ ea = 14#16) ∧
      (∃ s : State, Memory.wf s.mem ∧
        let ea := s.eaWord 2 0#4; ea.getLsbD 0 = true ∧ ea.toNat < s.cfg.memBytes ∧ ea = 15#16) ∧
      (∃ s : State, Memory.wf s.mem ∧
        let ea := s.eaWord 2 0#4; ea.getLsbD 0 = false ∧ s.cfg.memBytes < ea.toNat + 2 ∧ ea = 16#16) ∧
      ∃ s : State, Memory.wf s.mem ∧
        let ea := s.eaWord 2 0#4; ea.getLsbD 0 = true ∧ s.cfg.memBytes ≤ ea.toNat ∧ ea = 17#16 :=
  ⟨⟨tiny 0x1005#16 [(2, 14#16)], by decide⟩, ⟨tiny 0x1005#16 [(2, 15#16)], by decide⟩,
    ⟨tiny 0x1005#16 [(2, 16#16)], by decide⟩, tiny 0x1005#16 [(2, 17#16)], by decide⟩

theorem witness_LoadByteZeroExtends :
    (∃ s : State, s.cfg.wf ∧ (s.eaByte 2 1#4).toNat < s.cfg.memBytes ∧ s.eaByte 2 1#4 = 15#16) ∧
      (∃ s : State, s.cfg.wf ∧ (s.eaByte 2 1#4).toNat < s.cfg.memBytes ∧ s.eaByte 2 1#4 = 14#16) ∧
      ∃ s : State, s.cfg.wf ∧ s.cfg.memBytes ≤ (s.eaByte 2 1#4).toNat ∧ s.eaByte 2 1#4 = 16#16 :=
  ⟨⟨tiny 0#16 [(2, 14#16)], by decide⟩, ⟨tiny 0#16 [(2, 13#16)], by decide⟩, tiny 0#16 [(2, 15#16)], by decide⟩

theorem witness_StoreByteKeepsOtherBytes :
    (∃ s : State, s.cfg.wf ∧ Memory.wf s.mem ∧ (s.eaByte 2 1#4).toNat < s.cfg.memBytes ∧ s.eaByte 2 1#4 = 15#16) ∧
      (∃ s : State, s.cfg.wf ∧ Memory.wf s.mem ∧ (s.eaByte 2 1#4).toNat < s.cfg.memBytes ∧ s.eaByte 2 1#4 = 14#16) ∧
      ∃ s : State, s.cfg.wf ∧ Memory.wf s.mem ∧ s.cfg.memBytes ≤ (s.eaByte 2 1#4).toNat ∧ s.eaByte 2 1#4 = 16#16 :=
  ⟨⟨tiny 0x1005#16 [(2, 14#16)], by decide⟩, ⟨tiny 0x1005#16 [(2, 13#16)], by decide⟩,
    tiny 0x1005#16 [(2, 15#16)], by decide⟩

/-- The last word that exists, the first that does not, and an odd address. -/
theorem witness_WordAccessErrsExactlyOddOrOutOfRange :
    Memory.wf (tiny 0x1005#16).mem ∧ (tiny 0x1005#16).readWord 14#16 = some (0#16, 1) ∧
      ((tiny 0x1005#16).writeWord 14#16 0xABCD#16).isSome = true ∧ (tiny 0x1005#16).readWord 16#16 = none ∧
      (tiny 0x1005#16).readWord 13#16 = none := by decide

theorem witness_ByteAccessIsByteOfItsWord :
    Memory.wf (tiny 0x1005#16).mem ∧ (tiny 0x1005#16).readByte 1#16 = some (0x05#8, 1) ∧
      ((tiny 0x1005#16).writeByte 15#16 0xAB#8).isSome = true ∧ (tiny 0x1005#16).readByte 16#16 = none := by decide

theorem witness_StoredWordShowsHighByteFirst :
    ∃ (s s' : State) (a v : Word) (c : Nat), Memory.wf s.mem ∧ s.writeWord a v = some (s', c) ∧ a = 0xFFFE#16 :=
  ⟨start 0x1005#16, _, 0xFFFE#16, 0x1234#16, _, by decide, rfl, rfl⟩

theorem witness_LongsAreTwoWordsHighFirst :
    ∃ (t : State) (c : Nat), Memory.wf State.reset.mem ∧ State.reset.writeLong 0xFFFE#16 0x12345678#32 = (t, some c) :=
  ⟨_, _, by decide, rfl⟩

/-- The store overwrites the instruction after it. -/
theorem witness_StoreIntoNextInstructionTakesEffect :
    ∃ s t : State, Memory.wf s.mem ∧ s.faulted = false ∧ s.pc.getLsbD 0 = false ∧ s.eaWord 1 0#4 = s.pc + 2#16 ∧
      (s.pc + 2#16).toNat + 2 ≤ s.cfg.memBytes ∧ exec (.stw 2 1 0#4) s = .next t :=
  ⟨start 0xB210#16 [(1, 2#16), (2, 0x1007#16)], _, by decide, by decide, by decide, by decide, by decide,
    next_nextOr State.reset (by decide)⟩

/-- The last two bytes of memory are loaded. -/
theorem witness_CopyBytesLoadsBuffer :
    ∃ t : State, Memory.wf (tiny 0x1005#16).mem ∧ (tiny 0x1005#16).copyBytes 14 [0x12#8, 0x34#8, 0x56#8] 2 = some t ∧
      t.byteAt 15 = 0x34#8 :=
  ⟨_, by decide, rfl, by decide⟩

theorem witness_ConditionsCompareAfterSubtract :
    ∃ s t : State, exec (.sub 1 2) s = .next t ∧ s.reg 1 = 0x8000#16 ∧ s.reg 2 = 1#16 :=
  ⟨start 0x0121#16 [(1, 0x8000#16), (2, 1#16)], _, next_nextOr State.reset (by decide), by decide, by decide⟩

theorem witness_PrefixChainBuildsWideImmediate : State.reset.immPrefix = 0x0000#16 := by decide

/-- A step over an IMM word with a prefix before it, and one over another word. -/
theorem witness_OnlyImmLeavesPrefix :
    (∃ s t : State, step s = .next t ∧ t.faulted = false ∧ fieldCls (s.wordAt s.pc) = 0xF#4 ∧ s.immPrefix = 0x0123#16) ∧
      ∃ s t : State, step s = .next t ∧ t.faulted = false ∧ fieldCls (s.wordAt s.pc) = 0x0#4 ∧ s.immPrefix = 0x0123#16 :=
  ⟨⟨start 0xF456#16 (p := 0x0123#16), _, next_nextOr State.reset (by decide), by decide, by decide, by decide⟩,
    start 0x0128#16 (p := 0x0123#16), _, next_nextOr State.reset (by decide), by decide, by decide, by decide⟩

theorem witness_NoOtherRegisterWritten :
    ∃ s t : State, exec (.jal 2#8) s = .next t ∧ destOf (.jal 2#8) ≠ some 14 :=
  ⟨State.reset, _, next_nextOr State.reset (by decide), by decide⟩

theorem witness_OtherInstructionsKeepFlags :
    ∃ s t : State, exec (.ldw 1 2 0#4) s = .next t ∧ writesFlags (.ldw 1 2 0#4) = false ∧ s.ccr = nczv true true true true :=
  ⟨start 0xA120#16 [] (nczv true true true true), _, next_nextOr State.reset (by decide), by decide, by decide⟩

/-- A form that stores nothing, a word store and a byte store, each on the last word of memory. -/
theorem witness_OnlyStoredBytesChange :
    (∃ s t : State, Memory.wf s.mem ∧ exec (.ldw 3 2 0#4) s = .next t ∧ s.storeTarget (.ldw 3 2 0#4) = none) ∧
      (∃ s t : State, Memory.wf s.mem ∧ exec (.stw 3 2 0#4) s = .next t ∧
        s.storeTarget (.stw 3 2 0#4) = some (0xFFFE#16, 2)) ∧
      (∃ s t : State, Memory.wf s.mem ∧ exec (.stw 3 2 0#4) s = .next t ∧
        s.storeTarget (.stw 3 2 0#4) = some (0xFFFF#16, 1)) ∧
      ∃ s t : State, Memory.wf s.mem ∧ exec (.stb 3 2 1#4) s = .next t ∧
        s.storeTarget (.stb 3 2 1#4) = some (0xFFFF#16, 1) :=
  ⟨⟨start 0xA320#16, _, by decide, next_nextOr State.reset (by decide), by decide⟩,
    ⟨start 0xB320#16 [(2, 0xFFFE#16)], _, by decide, next_nextOr State.reset (by decide), by decide⟩,
    ⟨start 0xB320#16 [(2, 0xFFFF#16)], _, by decide, next_nextOr State.reset (by decide), by decide⟩,
    start 0xD321#16 [(2, 0xFFFE#16)], _, by decide, next_nextOr State.reset (by decide), by decide⟩

theorem witness_CostsMatchTable :
    ∃ s t : State, s.cfg.memCost = { base := 1, table := [] } ∧ s.faulted = false ∧ exec (.stw 3 2 0#4) s = .next t ∧
      t.faulted = false ∧ s.tableCost 1 (.stw 3 2 0#4) = 3 :=
  ⟨start 0xB320#16 [(2, 0x0101#16)], _, by decide, by decide, next_nextOr State.reset (by decide), by decide, by decide⟩

/-- A step whose sum just fits in 64 bits, and a step that returns no cost. -/
theorem witness_CyclesNeverDecrease :
    (∃ (s t : State) (c : Nat), step s = .next t ∧ t.out.cost = some c ∧ s.cycles.toNat + c < 2 ^ 64 ∧
      s.cycles = 0xFFFFFFFFFFFFFFFE#64) ∧
      ∃ s t : State, step s = .next t ∧ t.out.cost = none :=
  ⟨⟨{ start 0x1005#16 with cycles := 0xFFFFFFFFFFFFFFFE#64 }, _, 1, next_nextOr State.reset (by decide), by decide, by decide,
    by decide⟩, tiny 0#16 [] 0x10#16, _, next_nextOr State.reset (by decide), by decide⟩

theorem witness_DecodeInvertsEncode :
    Instr.wf (.reservedAlu 15 0 15#4) = true ∧ Instr.wf (.reservedBranch 0xD#4 0xFF#8) = true ∧
      Instr.wf (.stb 15 14 15#4) = true := by decide

/-- A word that signals `Illegal` and one that does not. -/
theorem witness_PlaceholderExactlyForIllegal :
    (∃ t, exec (decodeWord 0xEDFF#16) State.reset = .next t ∧ t.out.illegal.isSome = true) ∧
      ∃ t, exec (decodeWord 0xEEFF#16) State.reset = .next t ∧ t.out.illegal.isSome = false :=
  ⟨⟨_, next_nextOr State.reset (by decide), by decide⟩, _, next_nextOr State.reset (by decide), by decide⟩

/-- A taken branch with the last selector that has a displacement, and a JAL without a prefix. -/
theorem witness_PrintedTargetIsExecutedTarget :
    (∃ s t : State, fieldCls 0xEBFC#16 = 0xE#4 ∧ exec (decodeWord 0xEBFC#16) s = .next t ∧ (fieldCond 0xEBFC#16).toNat ≤ 11 ∧
      t.out.cost = some (s.fetchCost + 2)) ∧
      ∃ s t : State, fieldCls 0xEF80#16 = 0xE#4 ∧ exec (decodeWord 0xEF80#16) s = .next t ∧ fieldCond 0xEF80#16 = 0xF#4 ∧
        s.immPrefix = 0x0000#16 :=
  ⟨⟨start 0xEBFC#16 [] (nczv true false false false) (pc := 0x20), _, by decide, next_nextOr State.reset (by decide), by decide,
    by decide⟩, State.reset, _, by decide, next_nextOr State.reset (by decide), by decide, by decide⟩

theorem witness_StepIntoAndStepOut : ∃ s t : State, step s = .next t ∧ t.pc = 2#16 :=
  ⟨start 0xF012#16, _, next_nextOr State.reset (by decide), by decide⟩

/-- A chain of two IMM words and its consumer. -/
theorem witness_StepOverSkipsPrefixChain :
    ∃ s : State, 2 < wordCount ∧ ∀ k : Nat, k ≤ 2 → ∃ w c, s.readWord (s.pc + BitVec.ofNat 16 (2 * k)) = some (w, c) ∧
      (fieldCls w = 0xF#4 ↔ k < 2) := by
  refine ⟨((start 0xF001#16).setWordAt 2#16 0xF012#16).setWordAt 4#16 0x9334#16, by decide, fun k hk => ?_⟩
  have hk : k = 0 ∨ k = 1 ∨ k = 2 := by omega
  rcases hk with rfl | rfl | rfl
  · exact ⟨0xF001#16, 1, by decide, by decide⟩
  · exact ⟨0xF012#16, 1, by decide, by decide⟩
  · exact ⟨0x9334#16, 1, by decide, by decide⟩

/-- The request ended for the given reason. -/
def endsFor (r : RequestResult) (why : StopReason) : Prop := ∃ t, r = .stopped t why

theorem endsFor_of_ended {r : RequestResult} {why : StopReason} (h : ended r (fun _ w => w == why) = true) : endsFor r why := by
  cases r with
  | stopped t w => exact ⟨t, by rw [beq_iff_eq.mp h]⟩
  | walkNeverEnds t => cases h

/-- A loop of one instruction, `BRA .`, with a bound of 3. -/
def loop3 : State := { start 0xE0FF#16 with cfg := { Config.suggested with maxSteps := 3 } }

/-- `DW 0x0128` with `HALT_ON_ILLEGAL`. -/
def haltingIllegal : State := { start 0x0128#16 with cfg := { Config.suggested with haltOnIllegal := true } }

/-- One run for each reason, each of a block that is not faulted with a positive bound. -/
theorem witness_RunStopsForItsReason :
    (loop3.faulted = false ∧ 0 < loop3.cfg.maxSteps) ∧
      ((tiny 0#16 [] 0x10#16).faulted = false ∧ 0 < (tiny 0#16 [] 0x10#16).cfg.maxSteps) ∧
      (haltingIllegal.faulted = false ∧ 0 < haltingIllegal.cfg.maxSteps) ∧
      endsFor (loop3.runTo 2#16 (fun _ => false)) .bound ∧
      endsFor (loop3.runTo 2#16 (fun n => n == 1)) .cancelled ∧
      endsFor (loop3.runTo 0#16 (fun _ => false)) .target ∧
      endsFor ((loop3.setBreakpoint (some 0#16)).runTo 2#16 (fun _ => false)) .breakpoint ∧
      endsFor ((tiny 0#16 [] 0x10#16).runTo 2#16 (fun _ => false)) .faulted ∧
      endsFor (haltingIllegal.runTo 2#16 (fun _ => false)) .illegal :=
  ⟨by decide, by decide, by decide, endsFor_of_ended (by decide), endsFor_of_ended (by decide), endsFor_of_ended (by decide),
    endsFor_of_ended (by decide), endsFor_of_ended (by decide), endsFor_of_ended (by decide)⟩

end Sys2Proof.Tests
end

/-! PROOFS. The state family: reset, the invariant, the frames of an instruction, the counter, and the controller's fields. -/

namespace Sys2Proof.Machine

/-! ## Every step keeps the invariant -/

/-- A step that answers next is the fetch fault at the pc, or `exec` of the decoded word there. -/
theorem step_next_cases {s t : State} (h : step s = .next t) :
    t = s.raiseMemFault .fetch s.pc ∨ exec (decodeWord (s.wordAt s.pc)) s = .next t := by
  rcases step_cases s with ⟨_, e⟩ | ⟨_, _, e⟩ | ⟨_, _, e⟩ <;> rw [e] at h
  · cases h
  · cases h; exact .inl rfl
  · exact .inr h

/-- What every step can do, the fetch included. -/
theorem step_shape {s t : State} (h : step s = .next t) : FaultsOrRetires s t := by
  rcases step_next_cases h with rfl | h
  · exact .inl ⟨_, _, rfl⟩
  · exact exec_shape h

/-- A write of at most one word that lies in memory keeps the canonical form and the bound. -/
theorem StoresOneWord.mem_wf_below {s u : State} (hu : StoresOneWord s u) (hwf : Memory.wf s.mem)
    (hb : Memory.below s.mem s.cfg.memBytes) : Memory.wf u.mem ∧ Memory.below u.mem s.cfg.memBytes := by
  obtain ⟨_, e | ⟨a, w, ha, e⟩⟩ := hu <;> rw [e]
  · exact ⟨hwf, hb⟩
  · exact ⟨State.setWordAt_wf hwf a w, State.setWordAt_below w hb ha⟩

/-- Registers, flags and memory are all that an instruction changes before it retires. -/
theorem StoresOneWord.other_fields {s u : State} (hu : StoresOneWord s u) :
    u.cycles = s.cycles ∧ u.faulted = s.faulted ∧ u.faultInfo = s.faultInfo ∧ u.cfg = s.cfg := by
  rw [hu.1]
  exact ⟨rfl, rfl, rfl, rfl⟩

theorem State.raiseMemFault_inv {s : State} (hs : s.Inv) (k : FaultKind) (a : Word) : (s.raiseMemFault k a).Inv := by
  obtain ⟨hcfg, hpc, hwf, hb, _⟩ := hs
  exact ⟨hcfg, hpc, hwf, hb, rfl⟩

theorem StoresOneWord.retire_inv {s u : State} (hu : StoresOneWord s u) (hs : s.Inv) {pc' : Word}
    (hp : pc'.getLsbD 0 = false) (p' : Word) (cd : Nat) (tk : Bool) (ill : Option IllegalSignal) :
    (u.retire pc' p' cd tk ill).Inv := by
  obtain ⟨hcfg, _, hwf, hb, hf⟩ := hs
  obtain ⟨hwf', hb'⟩ := hu.mem_wf_below hwf hb
  obtain ⟨_, ef, ei, ec⟩ := hu.other_fields
  unfold State.Inv
  simp only [State.retire_cfg, State.retire_pc, State.retire_mem, State.retire_faulted, State.retire_faultInfo, ef, ei, ec]
  exact ⟨hcfg, hp, hwf', hb', hf⟩

theorem FaultsOrRetires.inv {s t : State} (h : FaultsOrRetires s t) (hs : s.Inv) : t.Inv := by
  obtain ⟨k, a, rfl⟩ | ⟨u, pc', p', cd, tk, ill, rfl, hu, hp⟩ := h
  · exact State.raiseMemFault_inv hs k a
  · have ⟨_, hpc, _⟩ := hs
    exact hu.retire_inv hs (hp hpc) p' cd tk ill

/-- Settles O3: a memory fault leaves all but the latch, and every other step retires after at most one word write. -/
theorem everyStepKeepsInvariant : Obligations.EveryStepKeepsInvariant :=
  fun _ _ hs h => (step_shape h).inv hs

/-! ## The frame of an instruction: registers, flags and prefix -/

/-- Of the general registers only `dest` may have changed, the flags only where `flags` is set, and the prefix is `p'` unless a
memory fault was raised. -/
def WritesOnly (dest : Option Reg) (flags : Bool) (p' : Word) (s t : State) : Prop :=
  (∀ q : Reg, dest ≠ some q → t.reg q = s.reg q) ∧ (flags = false → t.ccr = s.ccr) ∧
    (t.faulted = false → t.immPrefix = p')

/-- The prefix an instruction leaves (R84): IMM accumulates, every other one clears it. -/
def prefixAfter (p : Word) : Instr → Word
  | .imm m => accumulatePrefix p m
  | _ => 0x0000#16

theorem writesOnly_raiseMemFault (dest : Option Reg) (flags : Bool) (p' : Word) (s : State) (k : FaultKind) (a : Word) :
    WritesOnly dest flags p' s (s.raiseMemFault k a) :=
  ⟨fun _ _ => rfl, fun _ => rfl, fun h => by simp at h⟩

/-- Retiring with the registers and flags as they were. -/
theorem writesOnly_retire {s u : State} (hr : u.regs = s.regs) (hc : u.ccr = s.ccr) (pc' p' : Word) (cd : Nat)
    (tk : Bool) (ill : Option IllegalSignal) : WritesOnly none false p' s (u.retire pc' p' cd tk ill) :=
  ⟨fun q _ => by simp [State.reg, hr], fun _ => hc, fun _ => rfl⟩

/-- Retiring after a write of one register. -/
theorem writesOnly_retire_setReg (s : State) (r : Reg) (v pc' p' : Word) (cd : Nat) (tk : Bool)
    (ill : Option IllegalSignal) : WritesOnly (some r) false p' s ((s.setReg r v).retire pc' p' cd tk ill) :=
  ⟨fun _ hq => s.reg_setReg_other v fun e => hq (e ▸ rfl), fun _ => rfl, fun _ => rfl⟩

/-- Retiring after a write of one register and of the flags. -/
theorem writesOnly_retire_setReg_setCcr (s : State) (r : Reg) (v : Word) (f : Flags) (pc' p' : Word) (cd : Nat) (tk : Bool)
    (ill : Option IllegalSignal) :
    WritesOnly (some r) true p' s (((s.setReg r v).setCcr f).retire pc' p' cd tk ill) :=
  ⟨fun _ hq => s.reg_setReg_other v fun e => hq (e ▸ rfl), fun h => (nomatch h), fun _ => rfl⟩

theorem aluStep_writesOnly {op : AluOp} {rx : Reg} {b : Word} {ci : Bool} {s t : State}
    (h : aluStep op rx b ci s = .next t) : WritesOnly (some rx) true 0x0000#16 s t := by
  cases h
  exact writesOnly_retire_setReg_setCcr _ _ _ _ _ _ _ _ _

theorem loadStep_writesOnly {rx : Reg} {ea : Word} {read : Option (Word × Nat)} {s t : State}
    (h : loadStep rx ea read s = .next t) : WritesOnly (some rx) false 0x0000#16 s t := by
  rcases loadStep_cases rx ea read s with ⟨v, cd, _, e⟩ | ⟨_, e⟩ <;> rw [e] at h <;> cases h
  · exact writesOnly_retire_setReg _ _ _ _ _ _ _ _
  · exact writesOnly_raiseMemFault _ _ _ _ _ _

theorem storeStep_writesOnly {ea : Word} {write : Option (State × Nat)} {s t : State}
    (hw : ∀ r, write = some r → ∃ a w, s.wordError a = false ∧ r.1 = s.setWordAt a w)
    (h : storeStep ea write s = .next t) : WritesOnly none false 0x0000#16 s t := by
  rcases storeStep_cases ea write s with ⟨s', cd, hs, e⟩ | ⟨_, e⟩ <;> rw [e] at h <;> cases h
  · obtain ⟨a, w, _, hs'⟩ := hw _ hs
    subst hs'
    exact writesOnly_retire (u := s.setWordAt a w) rfl rfl _ _ _ _ _
  · exact writesOnly_raiseMemFault _ _ _ _ _ _

theorem branchStep_writesOnly {cond : Cond} {target : Word} {s t : State} (h : branchStep cond target s = .next t) :
    WritesOnly none false 0x0000#16 s t := by
  cases h
  exact writesOnly_retire rfl rfl _ _ _ _ _

theorem illegalStep_writesOnly (s : State) (w : Word) : WritesOnly none false 0x0000#16 s (s.illegalStep w) :=
  writesOnly_retire rfl rfl _ _ _ _ _

/-- The frame of every instruction. -/
theorem exec_writesOnly {i : Instr} {s t : State} (h : exec i s = .next t) :
    WritesOnly (destOf i) (writesFlags i) (prefixAfter s.immPrefix i) s t := by
  cases i with
  | add | sub | adc | sbc | rsub | and | or | xor => exact aluStep_writesOnly h
  | addi | subi | adci | sbci | rsubi | andi | ori | xori => exact aluStep_writesOnly h
  | movi => cases h; exact writesOnly_retire_setReg_setCcr _ _ _ _ _ _ _ _ _
  | ldw | ldb => exact loadStep_writesOnly h
  | stw => exact storeStep_writesOnly (fun _ => State.writeWordOrByte_some) h
  | stb => exact storeStep_writesOnly (fun _ => State.writeByte_some) h
  | bra | brn | bhi | bls | bhs | blo | beq | bne | bgt | ble | bge | blt | rts => exact branchStep_writesOnly h
  | jal => cases h; exact writesOnly_retire_setReg _ _ _ _ _ _ _ _
  | imm => cases h; exact writesOnly_retire rfl rfl _ _ _ _ _
  | reservedAlu | reservedBranch => cases h; exact illegalStep_writesOnly _ _

/-- Settles O44, by the frame of every instruction. -/
theorem noOtherRegisterWritten : Obligations.NoOtherRegisterWritten := by
  intro i s t q h hq
  obtain ⟨hregs, _, _⟩ := exec_writesOnly h
  exact hregs q hq

/-- Settles O45, by the frame of every instruction. -/
theorem otherInstructionsKeepFlags : Obligations.OtherInstructionsKeepFlags := by
  intro i s t h hf
  obtain ⟨_, hccr, _⟩ := exec_writesOnly h
  exact hccr hf

/-! ## The prefix after a step -/

theorem prefixAfter_decodeAluRegister (p : Word) (rx ry : Reg) (func : BitVec 4) :
    prefixAfter p (decodeAluRegister rx ry func) = 0x0000#16 := by
  unfold decodeAluRegister
  split <;> rfl

theorem prefixAfter_decodeBranch (p : Word) (cond : BitVec 4) (d : BitVec 8) :
    prefixAfter p (decodeBranch cond d) = 0x0000#16 := by
  unfold decodeBranch
  split <;> rfl

/-- The prefix a decoded word leaves: only class F is IMM (R67). -/
theorem prefixAfter_decodeWord (p w : Word) : prefixAfter p (decodeWord w) =
    if fieldCls w = 0xF#4 then accumulatePrefix p (fieldImm12 w) else 0x0000#16 := by
  split
  · next h => unfold decodeWord; rw [h]; rfl
  · next h =>
    have hne : (fieldCls w).toNat ≠ 15 := fun e => h (BitVec.eq_of_toNat_eq e)
    have hlt := (fieldCls w).isLt
    unfold decodeWord
    split
    case h_1 => exact prefixAfter_decodeAluRegister _ _ _ _
    case h_15 => exact prefixAfter_decodeBranch _ _ _
    case h_16 => simp only [imp_false] at *; omega
    all_goals rfl

/-- Settles O43: the step is `exec` of the decoded word, and of the decoded words only those of class F are IMM. -/
theorem onlyImmLeavesPrefix : Obligations.OnlyImmLeavesPrefix := by
  intro s t h hf
  rcases step_next_cases h with rfl | h
  · simp at hf
  · obtain ⟨_, _, hp⟩ := exec_writesOnly h
    rw [hp hf, prefixAfter_decodeWord, accumulatePrefix_eq, toNat_fieldImm12]

/-! ## The counter -/

/-- Settles O48: a memory fault keeps the counter and returns no cost, and every other step ends in `retire`. -/
theorem cyclesNeverDecrease : Obligations.CyclesNeverDecrease := by
  intro s t h
  obtain ⟨k, a, rfl⟩ | ⟨u, pc', p', cd, tk, ill, rfl, hu, _⟩ := step_shape h
  · exact ⟨le_rfl, fun c hc => by simp at hc, fun _ => ⟨rfl, rfl⟩⟩
  · obtain ⟨ecyc, _⟩ := hu.other_fields
    obtain ⟨hle, hsum⟩ := addCycles_spec s.cycles (u.stepCost cd tk)
    rw [State.retire_cycles, State.retire_out, ecyc]
    refine ⟨hle, fun c hc hfit => ?_, fun hc => by simp at hc⟩
    cases hc
    exact hsum hfit

/-! ## The step and the controller -/

/-- A write's outcome with the controller's values in the state after it. -/
def writeWithController (bp : Option Word) (run halt : Bool) (maxSteps : Nat) :
    Option (State × Nat) → Option (State × Nat) :=
  Option.map fun r => (r.1.withController bp run halt maxSteps, r.2)

section
variable (s : State) (bp : Option Word) (run halt : Bool) (maxSteps : Nat)

theorem State.writeWord_withController (a v : Word) : (s.withController bp run halt maxSteps).writeWord a v =
    writeWithController bp run halt maxSteps (s.writeWord a v) := by
  unfold State.writeWord
  rw [show (s.withController bp run halt maxSteps).wordError a = s.wordError a from rfl]
  split <;> rfl

theorem State.writeByte_withController (a : Word) (b : Byte) : (s.withController bp run halt maxSteps).writeByte a b =
    writeWithController bp run halt maxSteps (s.writeByte a b) := by
  unfold State.writeByte
  rw [show (s.withController bp run halt maxSteps).readWord (evenAddr a) = s.readWord (evenAddr a) from rfl]
  cases s.readWord (evenAddr a) with
  | none => rfl
  | some r =>
    simp only [State.writeWord_withController]
    cases s.writeWord (evenAddr a) (mergeByte a r.1 b) <;> rfl

theorem State.writeWordOrByte_withController (ea v : Word) :
    (s.withController bp run halt maxSteps).writeWordOrByte ea v =
      writeWithController bp run halt maxSteps (s.writeWordOrByte ea v) := by
  unfold State.writeWordOrByte
  split
  · exact s.writeByte_withController bp run halt maxSteps ea (lowByte v)
  · exact s.writeWord_withController bp run halt maxSteps ea v

theorem loadStep_withController (rx : Reg) (ea : Word) (read : Option (Word × Nat)) :
    loadStep rx ea read (s.withController bp run halt maxSteps) =
      onNext (fun t => t.withController bp run halt maxSteps) (loadStep rx ea read s) := by
  cases read <;> rfl

theorem storeStep_withController (ea : Word) (write : Option (State × Nat)) :
    storeStep ea (writeWithController bp run halt maxSteps write) (s.withController bp run halt maxSteps) =
      onNext (fun t => t.withController bp run halt maxSteps) (storeStep ea write s) := by
  cases write <;> rfl

theorem branchStep_withController (cond : Cond) (target : Word) :
    branchStep cond target (s.withController bp run halt maxSteps) =
      onNext (fun t => t.withController bp run halt maxSteps) (branchStep cond target s) := rfl

theorem aluStep_withController (op : AluOp) (rx : Reg) (b : Word) (ci : Bool) :
    aluStep op rx b ci (s.withController bp run halt maxSteps) =
      onNext (fun t => t.withController bp run halt maxSteps) (aluStep op rx b ci s) := rfl

/-- No instruction reads or writes what belongs to the controller. -/
theorem exec_withController (i : Instr) : exec i (s.withController bp run halt maxSteps) =
    onNext (fun t => t.withController bp run halt maxSteps) (exec i s) := by
  cases i with
  | add | sub | adc | sbc | rsub | and | or | xor => exact aluStep_withController s bp run halt maxSteps _ _ _ _
  | addi | subi | adci | sbci | rsubi | andi | ori | xori => exact aluStep_withController s bp run halt maxSteps _ _ _ _
  | ldw | ldb => exact loadStep_withController s bp run halt maxSteps _ _ _
  | stw rx ry o =>
    have hw := s.writeWordOrByte_withController bp run halt maxSteps (s.eaWord ry o) (s.reg rx)
    exact (congrArg (storeStep _ · _) hw).trans (storeStep_withController s bp run halt maxSteps _ _)
  | stb rx ry o =>
    have hw := s.writeByte_withController bp run halt maxSteps (s.eaByte ry o) (lowByte (s.reg rx))
    exact (congrArg (storeStep _ · _) hw).trans (storeStep_withController s bp run halt maxSteps _ _)
  | bra | brn | bhi | bls | bhs | blo | beq | bne | bgt | ble | bge | blt | rts =>
    exact branchStep_withController s bp run halt maxSteps _ _
  | movi | jal | imm | reservedAlu | reservedBranch => rfl

end

/-- The step as one equation: turned away, a fetch fault, or `exec` of the decoded word at the pc. -/
theorem step_eq (s : State) : step s =
    if s.faulted then .fault .stuckUntilReset
    else if s.wordError s.pc then .next (s.raiseMemFault .fetch s.pc)
    else exec (decodeWord (s.wordAt s.pc)) s := by
  rcases step_cases s with ⟨hf, e⟩ | ⟨hf, he, e⟩ | ⟨hf, he, e⟩ <;> simp [*]

/-- Settles O49: the fetch reads the latch, the pc, memory and the access parameters only, and no instruction sees the rest. -/
theorem stepIgnoresController : Obligations.StepIgnoresController := by
  intro s bp run halt maxSteps
  rw [step_eq, step_eq s]
  show (if s.faulted then _ else if s.wordError s.pc then _ else
    exec (decodeWord (s.wordAt s.pc)) (s.withController bp run halt maxSteps)) = _
  split
  · rfl
  · split
    · rfl
    · exact exec_withController s bp run halt maxSteps _

/-! ## Reset -/

theorem State.doReset_inv {s : State} (hs : s.Inv) : s.doReset.Inv := by
  obtain ⟨hcfg, _, hwf, hb, _⟩ := hs
  exact ⟨hcfg, by simp, hwf, hb, rfl⟩

/-- Settles O1, by what `reset()` sets each field to and by its keeping memory. -/
theorem resetSetsEveryElement : Obligations.ResetSetsEveryElement := fun s =>
  ⟨s.reg_doReset, s.doReset_pc, s.doReset_ccr, s.doReset_immPrefix, rfl, s.doReset_faulted, s.doReset_faultInfo,
    s.doReset_breakpoint, s.byteAt_doReset⟩

/-- Settles O2: the reset state by evaluation, and every other one because `reset()` keeps parameters and memory. -/
theorem resetStateMeetsInvariant : Obligations.ResetStateMeetsInvariant :=
  ⟨by decide, rfl, fun s hs => ⟨State.doReset_inv hs, s.doReset_out, s.doReset_cfg⟩⟩

/-! ## The snapshot -/

/-- R23: the bit positions of the flags. -/
theorem Flags.toNat_toBits (f : Flags) : f.toBits.toNat = 8 * f.n.toNat + 4 * f.c.toNat + 2 * f.v.toNat + f.z.toNat := by
  unfold Flags.toBits
  simp only [toNat_append_eq, BitVec.toNat_ofBool]
  omega

/-- Settles O56, by the value of the packed flags. -/
theorem snapshotPacksFlags : Obligations.SnapshotPacksFlags := fun s => s.ccr.toNat_toBits

end Sys2Proof.Machine

/-! PROOFS. The memory family: word, byte and long accesses, the loader, stores into the next instruction, and the frame
of memory. -/

namespace Sys2Proof.Machine

/-! ## When an access errs, and what it gives where it does not -/

section
variable {s : State} {a : Word}

theorem State.readWord_eq_none_iff : s.readWord a = none ↔ s.wordError a = true := by
  rcases s.readWord_cases a with ⟨he, e⟩ | ⟨he, e⟩ <;> simp [he, e]

theorem State.readWord_eq_some_iff {w : Word} {c : Nat} : s.readWord a = some (w, c) ↔
    s.wordError a = false ∧ w = s.wordAt a ∧ c = memCost s.cfg.memCost .read a := by
  rcases s.readWord_cases a with ⟨he, e⟩ | ⟨he, e⟩ <;> simp [he, e, eq_comm]

theorem State.writeWord_eq_none_iff {v : Word} : s.writeWord a v = none ↔ s.wordError a = true := by
  rcases s.writeWord_cases a v with ⟨he, e⟩ | ⟨he, e⟩ <;> simp [he, e]

theorem State.writeWord_eq_some_iff {v : Word} {s' : State} {c : Nat} : s.writeWord a v = some (s', c) ↔
    s.wordError a = false ∧ s' = s.setWordAt a v ∧ c = memCost s.cfg.memCost .write a := by
  rcases s.writeWord_cases a v with ⟨he, e⟩ | ⟨he, e⟩ <;> simp [he, e, eq_comm]

theorem State.readByte_eq_none_iff : s.readByte a = none ↔ s.wordError (evenAddr a) = true := by
  rcases s.readByte_cases a with ⟨he, e⟩ | ⟨he, e⟩ <;> simp [he, e]

theorem State.readByte_eq_some_iff {x : Byte} {c : Nat} : s.readByte a = some (x, c) ↔
    s.wordError (evenAddr a) = false ∧ x = s.byteAt a.toNat ∧ c = memCost s.cfg.memCost .read (evenAddr a) := by
  rcases s.readByte_cases a with ⟨he, e⟩ | ⟨he, e⟩ <;> simp [he, e, eq_comm]

theorem State.writeByte_eq_none_iff {b : Byte} : s.writeByte a b = none ↔ s.wordError (evenAddr a) = true := by
  rcases s.writeByte_cases a b with ⟨he, e⟩ | ⟨he, e⟩ <;> simp [he, e]

theorem State.writeByte_eq_some_iff {b : Byte} {s' : State} {c : Nat} : s.writeByte a b = some (s', c) ↔
    s.wordError (evenAddr a) = false ∧ s' = s.setWordAt (evenAddr a) (mergeByte a (s.wordAt (evenAddr a)) b) ∧
      c = memCost s.cfg.memCost .read (evenAddr a) + memCost s.cfg.memCost .write (evenAddr a) := by
  rcases s.writeByte_cases a b with ⟨he, e⟩ | ⟨he, e⟩ <;> simp [he, e, eq_comm]

end

/-! ## The word and the bytes that a write leaves alone -/

@[simp] theorem State.setWordAt_cfg (s : State) (a v : Word) : (s.setWordAt a v).cfg = s.cfg := rfl

@[simp] theorem State.wordError_setWordAt (s : State) (a v b : Word) : (s.setWordAt a v).wordError b = s.wordError b := rfl

theorem State.setWordAt_sameMemoryOutside {s : State} (hm : Memory.wf s.mem) (a v : Word) :
    SameMemoryOutside s (s.setWordAt a v) a.toNat 2 := by
  intro x hx
  rw [State.byteAt_setWordAt hm, if_neg (by omega), if_neg (by omega)]

theorem State.mergedWrite_sameMemoryOutside {s : State} (hm : Memory.wf s.mem) (a : Word) (b : Byte) :
    SameMemoryOutside s (s.setWordAt (evenAddr a) (mergeByte a (s.wordAt (evenAddr a)) b)) a.toNat 1 := by
  intro x hx
  rw [State.byteAt_mergedWrite hm, if_neg (by omega)]

/-- A word write leaves a word that does not overlap its own. -/
theorem State.wordAt_setWordAt_of_disjoint {s : State} (hm : Memory.wf s.mem) {a b : Word} (v : Word)
    (h : b.toNat + 2 ≤ a.toNat ∨ a.toNat + 2 ≤ b.toNat) : (s.setWordAt a v).wordAt b = s.wordAt b := by
  unfold State.wordAt
  rw [State.setWordAt_sameMemoryOutside hm a v b.toNat (by omega),
    State.setWordAt_sameMemoryOutside hm a v (b.toNat + 1) (by omega)]

/-! ## Word and byte accesses -/

/-- Settles O29, by the error condition as arithmetic and the reads of the written word and outside it. -/
theorem wordAccessErrsExactlyOddOrOutOfRange : Obligations.WordAccessErrsExactlyOddOrOutOfRange := by
  intro s a v hm
  refine ⟨State.readWord_eq_none_iff.trans (s.wordError_iff a), State.writeWord_eq_none_iff.trans (s.wordError_iff a),
    fun w c h => ?_, fun s' c h => ?_⟩
  · obtain ⟨_, rfl, hc⟩ := State.readWord_eq_some_iff.mp h
    exact ⟨hc, toNat_wordOfBytes _ _⟩
  · obtain ⟨he, rfl, hc⟩ := State.writeWord_eq_some_iff.mp h
    exact ⟨hc, State.readWord_eq_some_iff.mpr ⟨he, (State.wordAt_setWordAt hm a v).symm, rfl⟩,
      State.setWordAt_sameMemoryOutside hm a v⟩

/-- Settles O30: a byte write is the write of the word at the even address with that one byte replaced. -/
theorem byteAccessIsByteOfItsWord : Obligations.ByteAccessIsByteOfItsWord := by
  intro s a b hm
  rw [← evenAddr_eq]
  refine ⟨State.readByte_eq_none_iff.trans State.readWord_eq_none_iff.symm,
    State.writeByte_eq_none_iff.trans State.readWord_eq_none_iff.symm, fun x c h => ?_, fun s' c h => ?_⟩
  · obtain ⟨_, hx, hc⟩ := State.readByte_eq_some_iff.mp h
    exact ⟨hx, hc⟩
  · obtain ⟨_, rfl, hc⟩ := State.writeByte_eq_some_iff.mp h
    exact ⟨hc, by rw [State.byteAt_mergedWrite hm, if_pos rfl], State.mergedWrite_sameMemoryOutside hm a b⟩

theorem highByte_eq (w : Word) : highByte w = BitVec.ofNat 8 (w.toNat / 256) := by
  apply BitVec.eq_of_toNat_eq
  rw [toNat_highByte, BitVec.toNat_ofNat]
  have := w.isLt
  omega

theorem lowByte_eq (w : Word) : lowByte w = BitVec.ofNat 8 (w.toNat % 256) := by
  apply BitVec.eq_of_toNat_eq
  rw [toNat_lowByte, BitVec.toNat_ofNat]
  omega

/-- The byte at either address of a word is read where the word is. -/
theorem State.readByte_in_word {s : State} {a b : Word} (he : s.wordError a = false)
    (hb : b.toNat = a.toNat ∨ b.toNat = a.toNat + 1) : ∃ c, s.readByte b = some (s.byteAt b.toNat, c) := by
  obtain ⟨heven, _⟩ := (s.wordError_false_iff a).mp he
  have : evenAddr b = a := BitVec.eq_of_toNat_eq (by rw [toNat_evenAddr]; omega)
  exact ⟨_, State.readByte_eq_some_iff.mpr ⟨this ▸ he, rfl, rfl⟩⟩

/-- Settles O31: the write leaves the high byte at the even address and the low byte after it, and both can be read. -/
theorem storedWordShowsHighByteFirst : Obligations.StoredWordShowsHighByteFirst := by
  intro s s' a v c hm h
  obtain ⟨he, rfl, _⟩ := State.writeWord_eq_some_iff.mp h
  obtain ⟨heven, _⟩ := (s.wordError_false_iff a).mp he
  have hnext : (a + 1#16).toNat = a.toNat + 1 := by
    have := a.isLt
    rw [BitVec.toNat_add, BitVec.toNat_ofNat]
    omega
  have hhigh : (s.setWordAt a v).byteAt a.toNat = highByte v := by
    rw [State.byteAt_setWordAt hm, if_neg (by omega), if_pos rfl]
  have hlow : (s.setWordAt a v).byteAt (a + 1#16).toNat = lowByte v := by
    rw [State.byteAt_setWordAt hm, if_pos hnext]
  rw [← highByte_eq, ← lowByte_eq, ← hhigh, ← hlow]
  exact ⟨State.readByte_in_word he (.inl rfl), State.readByte_in_word he (.inr hnext)⟩

/-! ## Longs -/

theorem State.readLong_eq_some {s : State} {a hi lo : Word} {c1 c2 : Nat} (h1 : s.readWord a = some (hi, c1))
    (h2 : s.readWord (a + 2#16) = some (lo, c2)) : s.readLong a = some (hi ++ lo, c1 + c2) := by
  unfold State.readLong
  rw [h1, h2]

/-- A long write that succeeds is two word writes, neither of which errs. -/
theorem State.writeLong_eq_some {s t : State} {a : Word} {v : BitVec 32} {c : Nat} (h : s.writeLong a v = (t, some c)) :
    s.wordError a = false ∧ s.wordError (a + 2#16) = false ∧
      t = (s.setWordAt a (v.extractLsb' 16 16)).setWordAt (a + 2#16) (v.extractLsb' 0 16) ∧
      c = memCost s.cfg.memCost .write a + memCost s.cfg.memCost .write (a + 2#16) := by
  unfold State.writeLong at h
  rcases s.writeWord_cases a (v.extractLsb' 16 16) with ⟨_, e⟩ | ⟨he, e⟩ <;> simp only [e] at h
  · cases h
  · rcases (s.setWordAt a (v.extractLsb' 16 16)).writeWord_cases (a + 2#16) (v.extractLsb' 0 16)
      with ⟨_, e'⟩ | ⟨he', e'⟩ <;> simp only [e'] at h <;> cases h
    exact ⟨he, he', rfl, rfl⟩

/-- Settles O32: the two words do not overlap, since both addresses are even and differ, also where the second wraps. -/
theorem longsAreTwoWordsHighFirst : Obligations.LongsAreTwoWordsHighFirst := by
  intro s t a v c hm h
  obtain ⟨he, he', ht, hc⟩ := State.writeLong_eq_some h
  obtain ⟨heven, _⟩ := (s.wordError_false_iff a).mp he
  have hdisjoint : a.toNat + 2 ≤ (a + 2#16).toNat ∨ (a + 2#16).toNat + 2 ≤ a.toNat := by
    have := a.isLt
    rw [BitVec.toNat_add, BitVec.toNat_ofNat]
    omega
  have hv : v.extractLsb' 16 16 ++ v.extractLsb' 0 16 = v := BitVec.extractLsb'_append_extractLsb'
  have hm' := State.setWordAt_wf hm a (v.extractLsb' 16 16)
  have hhi : t.wordAt a = v.extractLsb' 16 16 := by
    rw [ht, State.wordAt_setWordAt_of_disjoint hm' _ hdisjoint, State.wordAt_setWordAt hm]
  have hlo : t.wordAt (a + 2#16) = v.extractLsb' 0 16 := by
    rw [ht, State.wordAt_setWordAt hm']
  have hreadHi := (State.readWord_eq_some_iff (s := t)).mpr ⟨by simp [ht, he], hhi.symm, rfl⟩
  have hreadLo := (State.readWord_eq_some_iff (s := t)).mpr ⟨by simp [ht, he'], hlo.symm, rfl⟩
  have hlong := State.readLong_eq_some hreadHi hreadLo
  rw [hv] at hlong
  refine ⟨⟨_, _, _, _, hreadHi, hreadLo, ?_, hlong⟩, hc⟩
  conv_lhs => rw [← hv, toNat_append_eq]
  omega

/-! ## A store into the next instruction -/

theorem State.writeWordOrByte_of_even {s : State} {ea v : Word} (h : ea.getLsbD 0 = false) :
    s.writeWordOrByte ea v = s.writeWord ea v := by
  rw [State.writeWordOrByte, h]
  rfl

theorem State.writeWordOrByte_of_odd {s : State} {ea v : Word} (h : ea.getLsbD 0 = true) :
    s.writeWordOrByte ea v = s.writeByte ea (lowByte v) := by
  rw [State.writeWordOrByte, h]
  rfl

/-- STW at an even address inside memory. -/
theorem exec_stw_of_wordError_false {rx ry : Reg} {off4 : BitVec 4} {s : State}
    (he : s.wordError (s.eaWord ry off4) = false) : exec (.stw rx ry off4) s =
      .next ((s.setWordAt (s.eaWord ry off4) (s.reg rx)).retire s.npc 0x0000#16
        (memCost s.cfg.memCost .write (s.eaWord ry off4)) false none) := by
  obtain ⟨heven, _⟩ := (s.wordError_false_iff _).mp he
  have hbit : (s.eaWord ry off4).getLsbD 0 = false := by rw [getLsbD_zero_eq]; exact decide_eq_false (by omega)
  rw [exec_stw, State.writeWordOrByte_of_even hbit, State.writeWord_eq_some_iff.mpr ⟨he, rfl, rfl⟩]
  rfl

/-- A step whose fetch succeeds. -/
theorem step_of_fetch {s : State} (hf : s.faulted = false) (he : s.wordError s.pc = false) :
    step s = exec (decodeWord (s.wordAt s.pc)) s := by
  simp [step_eq, hf, he]

/-- Settles O33: the store leaves its word at the new pc, where the next step fetches it. -/
theorem storeIntoNextInstructionTakesEffect : Obligations.StoreIntoNextInstructionTakesEffect := by
  intro rx ry off4 s t hm hf hpc hea hfit h
  have hnpc : s.eaWord ry off4 = s.npc := hea
  have he : s.wordError s.npc = false := by
    have hodd := State.npc_even hpc
    rw [getLsbD_zero_eq] at hodd
    exact (s.wordError_false_iff _).mpr ⟨by have := of_decide_eq_false hodd; omega, hfit⟩
  rw [exec_stw_of_wordError_false (hnpc ▸ he), hnpc] at h
  cases h
  refine (step_of_fetch ?_ ?_).trans (congrArg (fun w => exec (decodeWord w) _) ?_)
  · exact hf
  · exact he
  · exact State.wordAt_setWordAt hm s.npc (s.reg rx)

/-! ## The loader -/

theorem State.copyBytes_eq_some {s t : State} {addr length : Nat} {buffer : List Byte}
    (h : s.copyBytes addr buffer length = some t) :
    length ≤ buffer.length ∧ addr + length ≤ s.cfg.memBytes ∧ t = s.setBytes addr (buffer.take length) := by
  unfold State.copyBytes at h
  split at h
  · next hfit =>
    cases h
    obtain ⟨hlen, hend⟩ := hfit
    exact ⟨hlen, hend, rfl⟩
  · cases h

/-- Settles O34, by the read after a bulk write. -/
theorem copyBytesLoadsBuffer : Obligations.CopyBytesLoadsBuffer := by
  intro s t addr buffer length hm h
  obtain ⟨hlen, _, rfl⟩ := State.copyBytes_eq_some h
  have htake : (buffer.take length).length = length := List.length_take_of_le hlen
  refine ⟨fun k hk => ?_, fun x hx => ?_⟩
  · obtain ⟨_, hread⟩ := State.byteAt_setBytes (buffer.take length) hm addr (addr + k)
    rw [hread, if_pos (by omega), Nat.add_sub_cancel_left, List.getElem?_take_of_lt hk,
      List.getElem?_eq_getElem (by omega)]
    rfl
  · obtain ⟨_, hread⟩ := State.byteAt_setBytes (buffer.take length) hm addr x
    rw [hread, if_neg (by omega)]

/-! ## The frame of memory -/

/-- Of memory only the stored bytes may have changed: none where there is no target, else those from the address on. -/
def StoresOnly (s t : State) : Option (Word × Nat) → Prop
  | none => SameMemory s t
  | some (ea, n) => SameMemoryOutside s t ea.toNat n

theorem aluStep_sameMemory {op : AluOp} {rx : Reg} {b : Word} {ci : Bool} {s t : State}
    (h : aluStep op rx b ci s = .next t) : SameMemory s t := by
  cases h
  exact fun _ => rfl

theorem branchStep_sameMemory {cond : Cond} {target : Word} {s t : State} (h : branchStep cond target s = .next t) :
    SameMemory s t := by
  cases h
  exact fun _ => rfl

theorem loadStep_sameMemory {rx : Reg} {ea : Word} {read : Option (Word × Nat)} {s t : State}
    (h : loadStep rx ea read s = .next t) : SameMemory s t := by
  rcases loadStep_cases rx ea read s with ⟨_, _, _, e⟩ | ⟨_, e⟩ <;> rw [e] at h <;> cases h <;> exact fun _ => rfl

/-- A store step changes what its write does, and a faulting one nothing. -/
theorem storeStep_sameMemoryOutside {ea : Word} {write : Option (State × Nat)} {s t : State} {a n : Nat}
    (hw : ∀ s' c, write = some (s', c) → SameMemoryOutside s s' a n) (h : storeStep ea write s = .next t) :
    SameMemoryOutside s t a n := by
  rcases storeStep_cases ea write s with ⟨s', cd, hs, e⟩ | ⟨_, e⟩ <;> rw [e] at h <;> cases h
  · exact hw s' cd hs
  · exact fun _ _ => rfl

theorem State.writeWord_sameMemoryOutside {s s' : State} {a v : Word} {c : Nat} (hm : Memory.wf s.mem)
    (h : s.writeWord a v = some (s', c)) : SameMemoryOutside s s' a.toNat 2 := by
  obtain ⟨_, rfl, _⟩ := State.writeWord_eq_some_iff.mp h
  exact State.setWordAt_sameMemoryOutside hm a v

theorem State.writeByte_sameMemoryOutside {s s' : State} {a : Word} {b : Byte} {c : Nat} (hm : Memory.wf s.mem)
    (h : s.writeByte a b = some (s', c)) : SameMemoryOutside s s' a.toNat 1 := by
  obtain ⟨_, rfl, _⟩ := State.writeByte_eq_some_iff.mp h
  exact State.mergedWrite_sameMemoryOutside hm a b

theorem State.writeWordOrByte_sameMemoryOutside {s s' : State} {ea v : Word} {c : Nat} (hm : Memory.wf s.mem)
    (h : s.writeWordOrByte ea v = some (s', c)) :
    SameMemoryOutside s s' ea.toNat (if ea.getLsbD 0 then 1 else 2) := by
  cases hodd : ea.getLsbD 0
  · rw [State.writeWordOrByte_of_even hodd] at h
    exact State.writeWord_sameMemoryOutside hm h
  · rw [State.writeWordOrByte_of_odd hodd] at h
    exact State.writeByte_sameMemoryOutside hm h

/-- The memory frame of every instruction. -/
theorem exec_storesOnly {i : Instr} {s t : State} (hm : Memory.wf s.mem) (h : exec i s = .next t) :
    StoresOnly s t (s.storeTarget i) := by
  cases i with
  | add | sub | adc | sbc | rsub | and | or | xor => exact aluStep_sameMemory h
  | addi | subi | adci | sbci | rsubi | andi | ori | xori => exact aluStep_sameMemory h
  | ldw | ldb => exact loadStep_sameMemory h
  | stw => exact storeStep_sameMemoryOutside (fun _ _ => State.writeWordOrByte_sameMemoryOutside hm) h
  | stb => exact storeStep_sameMemoryOutside (fun _ _ => State.writeByte_sameMemoryOutside hm) h
  | bra | brn | bhi | bls | bhs | blo | beq | bne | bgt | ble | bge | blt | rts => exact branchStep_sameMemory h
  | movi | jal | imm | reservedAlu | reservedBranch => cases h; exact fun _ => rfl

/-- Settles O46, by the memory frame of every instruction. -/
theorem onlyStoredBytesChange : Obligations.OnlyStoredBytesChange := by
  intro i s t hm h
  have hframe := exec_storesOnly hm h
  exact ⟨fun e => by rwa [e] at hframe, fun ea n e => by rwa [e] at hframe⟩

end Sys2Proof.Machine

/-! PROOFS. The encoding family: decoder and encoder invert each other, the opcode table splits the words, and the facts about
single instructions that go with them. -/

namespace Sys2Proof

/-! ## What the decoder reads from the word of each format -/

section
variable (rx ry : Reg) (func cond : BitVec 4) (d : BitVec 8)

theorem decodeWord_packRRN_class0 : decodeWord (packRRN 0x0#4 rx ry func) = decodeAluRegister rx ry func := by
  simp [decodeWord]

theorem decodeWord_packB : decodeWord (packB cond d) = decodeBranch cond d := by
  simp [decodeWord]

end

/-! ## The two reserved fields as numbers (R74) -/

theorem reservedFunc_iff : ∀ func : BitVec 4, reservedFunc func = true ↔ 8 ≤ func.toNat := by decide

theorem reservedCond_iff : ∀ cond : BitVec 4, reservedCond cond = true ↔ cond.toNat = 12 ∨ cond.toNat = 13 := by decide

theorem decodeAluRegister_of_reserved {func : BitVec 4} (h : reservedFunc func = true) (rx ry : Reg) :
    decodeAluRegister rx ry func = .reservedAlu rx ry func := by
  have h8 := (reservedFunc_iff func).mp h
  unfold decodeAluRegister
  split
  case h_9 => rfl
  all_goals omega

theorem decodeBranch_of_reserved {cond : BitVec 4} (h : reservedCond cond = true) (d : BitVec 8) :
    decodeBranch cond d = .reservedBranch cond d := by
  have hc := (reservedCond_iff cond).mp h
  unfold decodeBranch
  split
  case h_15 => rfl
  all_goals omega

/-! ## Decoding inverts encoding -/

theorem decodeWord_encode {i : Instr} (h : i.wf = true) : decodeWord (encode i) = i := by
  cases i with
  | add rx ry | sub rx ry | adc rx ry | sbc rx ry | rsub rx ry | and rx ry | or rx ry | xor rx ry =>
    exact decodeWord_packRRN_class0 rx ry _
  | addi | subi | adci | sbci | rsubi | andi | ori | xori | movi => simp [encode, decodeWord]
  | ldw | stw | ldb | stb => simp [encode, decodeWord]
  | bra d | brn d | bhi d | bls d | bhs d | blo d | beq d | bne d | bgt d | ble d | bge d | blt d | rts d | jal d =>
    exact decodeWord_packB _ d
  | imm => simp [encode, decodeWord]
  | reservedAlu rx ry func =>
    exact (decodeWord_packRRN_class0 rx ry func).trans (decodeAluRegister_of_reserved h rx ry)
  | reservedBranch cond d => exact (decodeWord_packB cond d).trans (decodeBranch_of_reserved h d)

theorem decode_encodeBytes_append (i : Instr) (rest : List Byte) :
    decode (encodeBytes i ++ rest) = .ok (decodeWord (encode i), rest) := by
  simp [encodeBytes, decode]

/-- Settles O50, word and bytes by the decoder on the word of each constructor. -/
theorem decodeInvertsEncode : Obligations.DecodeInvertsEncode := fun i hi =>
  ⟨decodeWord_encode hi, fun rest => by rw [decode_encodeBytes_append, decodeWord_encode hi]⟩

/-! ## A word is the pack of its fields -/

section
-- The class is given as `decodeWord` splits on it, as a number.
variable {w : Word} {c : BitVec 4} (h : (fieldCls w).toNat = c.toNat)
include h

theorem packRRN_fields : packRRN c (fieldRx w) (fieldRy w) (fieldLo w) = w := by
  rw [toNat_fieldCls] at h
  exact BitVec.eq_of_toNat_eq (by rw [toNat_packRRN, val_fieldRx, val_fieldRy, toNat_fieldLo]; omega)

theorem packRI_fields : packRI c (fieldRx w) (fieldImm8 w) = w := by
  rw [toNat_fieldCls] at h
  exact BitVec.eq_of_toNat_eq (by rw [toNat_packRI, val_fieldRx, toNat_fieldImm8]; omega)

end

theorem packB_fields {w : Word} (h : (fieldCls w).toNat = 14) : packB (fieldCond w) (fieldImm8 w) = w := by
  rw [toNat_fieldCls] at h
  exact BitVec.eq_of_toNat_eq (by rw [toNat_packB, toNat_fieldCond, toNat_fieldImm8]; omega)

theorem packP_fields {w : Word} (h : (fieldCls w).toNat = 15) : packP (fieldImm12 w) = w := by
  rw [toNat_fieldCls] at h
  exact BitVec.eq_of_toNat_eq (by rw [toNat_packP, toNat_fieldImm12]; omega)

/-! ## Encoding inverts decoding -/

theorem encode_decodeAluRegister (rx ry : Reg) (func : BitVec 4) :
    encode (decodeAluRegister rx ry func) = packRRN 0x0#4 rx ry func := by
  unfold decodeAluRegister
  split
  case h_9 => rfl
  all_goals next h => exact congrArg (packRRN 0x0#4 rx ry) (BitVec.eq_of_toNat_eq h.symm)

theorem wf_decodeAluRegister (rx ry : Reg) (func : BitVec 4) : (decodeAluRegister rx ry func).wf = true := by
  unfold decodeAluRegister
  split
  case h_9 => exact (reservedFunc_iff func).mpr (by simp only [imp_false] at *; omega)
  all_goals rfl

theorem encode_decodeBranch (cond : BitVec 4) (d : BitVec 8) : encode (decodeBranch cond d) = packB cond d := by
  unfold decodeBranch
  split
  case h_15 => rfl
  all_goals next h => exact congrArg (packB · d) (BitVec.eq_of_toNat_eq h.symm)

theorem wf_decodeBranch (cond : BitVec 4) (d : BitVec 8) : (decodeBranch cond d).wf = true := by
  unfold decodeBranch
  split
  case h_15 =>
    have := cond.isLt
    exact (reservedCond_iff cond).mpr (by simp only [imp_false] at *; omega)
  all_goals rfl

theorem wf_decodeWord (w : Word) : (decodeWord w).wf = true := by
  unfold decodeWord
  split
  case h_1 => exact wf_decodeAluRegister _ _ _
  case h_15 => exact wf_decodeBranch _ _
  all_goals rfl

theorem encode_decodeWord (w : Word) : encode (decodeWord w) = w := by
  have hlt := (fieldCls w).isLt
  unfold decodeWord
  split
  case h_1 h => exact (encode_decodeAluRegister _ _ _).trans (packRRN_fields h)
  case h_11 h | h_12 h | h_13 h | h_14 h => exact packRRN_fields h
  case h_15 h => exact (encode_decodeBranch _ _).trans (packB_fields h)
  case h_16 => exact packP_fields (by simp only [imp_false] at *; omega)
  all_goals next h => exact packRI_fields h

/-- Settles O51, by the packs of the fields that each class of the decoder reads. -/
theorem encodeInvertsDecode : Obligations.EncodeInvertsDecode := fun w => ⟨wf_decodeWord w, encode_decodeWord w⟩

/-! ## The opcode table splits the words -/

/-- Of the bits that both rows look at, one is fixed to different values. -/
abbrev OpcodeRow.Differs (r q : OpcodeRow) : Prop := r.pattern &&& q.mask ≠ q.pattern &&& r.mask

theorem OpcodeRow.Differs.not_both_hold {r q : OpcodeRow} (h : r.Differs q) {w : Word} (hr : r.holds w = true) :
    ¬ q.holds w = true := by
  intro hq
  have er : w &&& r.mask = r.pattern := eq_of_beq hr
  have eq : w &&& q.mask = q.pattern := eq_of_beq hq
  exact h (by rw [← er, ← eq, BitVec.and_assoc, BitVec.and_assoc, BitVec.and_comm r.mask])

theorem opcodeTable_pairwise_differs : opcodeTable.Pairwise OpcodeRow.Differs := by decide

/-- Where no two members satisfy `p`, one that does is all that `filter` leaves. -/
theorem filter_eq_singleton {α : Type} {p : α → Bool} {a : α} {l : List α}
    (hl : l.Pairwise fun x y => p x = true → ¬ p y = true) (ha : a ∈ l) (hp : p a = true) : l.filter p = [a] := by
  induction l with
  | nil => cases ha
  | cons x xs ih =>
    obtain ⟨hx, hxs⟩ := List.pairwise_cons.mp hl
    rcases List.mem_cons.mp ha with rfl | ha
    · rw [List.filter_cons_of_pos hp, List.filter_eq_nil_iff.mpr fun y hy => hx y hy hp]
    · rw [List.filter_cons_of_neg fun h => hx a ha h hp, ih hxs ha]

/-- The family EncodingRow for all instructions, in the order of the constructors. -/
theorem Laws.EncodingRow.every (i : Instr) : Statement i :=
  i.rec add sub adc sbc rsub and or xor addi subi adci sbci rsubi andi ori xori movi ldw stw ldb stb bra brn bhi bls bhs blo
    beq bne bgt ble bge blt rts jal imm reservedAlu reservedBranch

/-- Settles O52: the row of the decoded instruction holds its word, and two rows never hold one word. -/
theorem everyWordIsInOneRow : Obligations.EveryWordIsInOneRow := by
  intro w
  obtain ⟨row, hmem, hname, hholds⟩ := Laws.EncodingRow.every (decodeWord w) (wf_decodeWord w)
  rw [encode_decodeWord] at hholds
  rw [filter_eq_singleton (opcodeTable_pairwise_differs.imp fun h => h.not_both_hold) hmem hholds, List.map_singleton, hname]

/-! ## Words written out -/

/-- Settles O53, by evaluating the decoder on the eight words. -/
theorem writtenOutWordsDecode : Obligations.WrittenOutWordsDecode := by
  unfold Obligations.WrittenOutWordsDecode
  decide

end Sys2Proof

namespace Sys2Proof.Machine

/-! ## Every instruction answers a next state -/

theorem loadStep_answers (rx : Reg) (ea : Word) (read : Option (Word × Nat)) (s : State) :
    ∃ t, loadStep rx ea read s = .next t := by
  rcases loadStep_cases rx ea read s with ⟨_, _, _, e⟩ | ⟨_, e⟩ <;> exact ⟨_, e⟩

theorem storeStep_answers (ea : Word) (write : Option (State × Nat)) (s : State) :
    ∃ t, storeStep ea write s = .next t := by
  rcases storeStep_cases ea write s with ⟨_, _, _, e⟩ | ⟨_, e⟩ <;> exact ⟨_, e⟩

/-- Settles O8: the shared steps of loads and stores answer next on both ways, and the other arms have one way. -/
theorem everyInstructionAnswersNext : Obligations.EveryInstructionAnswersNext := by
  intro i s
  cases i with
  | ldw | ldb => exact loadStep_answers _ _ _ s
  | stw | stb => exact storeStep_answers _ _ s
  | add | sub | adc | sbc | rsub | and | or | xor => exact ⟨_, rfl⟩
  | addi | subi | adci | sbci | rsubi | andi | ori | xori | movi => exact ⟨_, rfl⟩
  | bra | brn | bhi | bls | bhs | blo | beq | bne | bgt | ble | bge | blt | rts | jal => exact ⟨_, rfl⟩
  | imm | reservedAlu | reservedBranch => exact ⟨_, rfl⟩

/-! ## Effective addresses -/

theorem State.toNat_eaWord (s : State) (ry : Reg) (off4 : BitVec 4) :
    (s.eaWord ry off4).toNat = ((s.reg ry).toNat + 2 * off4.toNat) % 2 ^ 16 := by
  unfold State.eaWord
  rw [BitVec.toNat_add, BitVec.toNat_mul, BitVec.toNat_setWidth, BitVec.toNat_ofNat]
  omega

theorem State.toNat_eaByte (s : State) (ry : Reg) (off4 : BitVec 4) :
    (s.eaByte ry off4).toNat = ((s.reg ry).toNat + off4.toNat) % 2 ^ 16 := by
  unfold State.eaByte
  rw [BitVec.toNat_add, BitVec.toNat_setWidth]
  omega

/-- Settles O24, by the two addresses as numbers. -/
theorem effectiveAddressesScaleAndWrap : Obligations.EffectiveAddressesScaleAndWrap := fun s ry off4 =>
  ⟨s.toNat_eaWord ry off4, s.toNat_eaByte ry off4⟩

end Sys2Proof.Machine

/-! PROOFS. The dispatch family: what a step runs, when it faults and when it cannot be taken. -/

namespace Sys2Proof.Machine

/-! ## Fetch -/

theorem decode_two_bytes_eq_ok {hi lo : Byte} {i : Instr} (h : decode [hi, lo] = .ok (i, [])) :
    i = decodeWord (wordOfBytes hi lo) := by
  cases h
  rfl

/-- Settles O4: the fetched word is the one the two bytes make. -/
theorem stepRunsDecodedInstruction : Obligations.StepRunsDecodedInstruction := by
  intro s i hf hpc hfit hdec
  rw [decode_two_bytes_eq_ok hdec]
  rw [getLsbD_zero_eq] at hpc
  have hodd := of_decide_eq_false hpc
  exact step_of_fetch hf ((s.wordError_false_iff s.pc).mpr ⟨by omega, hfit⟩)

theorem step_of_fetch_error {s : State} (hf : s.faulted = false) (he : s.wordError s.pc = true) :
    step s = .next (s.raiseMemFault .fetch s.pc) := by
  simp [step_eq, hf, he]

/-- Settles O5: the fetch errs beyond memory, and the fault it raises is precise. -/
theorem fetchBeyondMemoryFaults : Obligations.FetchBeyondMemoryFaults := fun s hf hend =>
  ⟨_, step_of_fetch_error hf ((s.wordError_iff s.pc).mpr (.inr hend)), s.raiseMemFault_memFaulted .fetch s.pc⟩

/-! ## Memory faults -/

/-- Of the two ways a step can end, only the fault sets the latch: a retiring step keeps it. -/
theorem FaultsOrRetires.memFaulted {s t : State} (h : FaultsOrRetires s t) (hs : s.faulted = false)
    (ht : t.faulted = true) : ∃ kind a, MemFaulted s t kind a := by
  obtain ⟨kind, a, rfl⟩ | ⟨u, pc', p', cd, tk, ill, rfl, hu, _⟩ := h
  · exact ⟨kind, a, s.raiseMemFault_memFaulted kind a⟩
  · obtain ⟨_, hkeep, _⟩ := hu.other_fields
    rw [State.retire_faulted, hkeep, hs] at ht
    cases ht

theorem State.writeByte_answers_of_readWord {s : State} {a : Word} {r : Word × Nat}
    (h : s.readWord (evenAddr a) = some r) (b : Byte) : ∃ w, s.writeByte a b = some w := by
  obtain ⟨he, _⟩ := State.readWord_eq_some_iff.mp h
  exact ⟨_, State.writeByte_eq_some_iff.mpr ⟨he, rfl, rfl⟩⟩

/-- Settles O6: a step that sets the latch is one that raised the fault, and a byte store reads and writes the same word. -/
theorem memFaultIsPrecise : Obligations.MemFaultIsPrecise :=
  ⟨fun _ _ hs h ht => (step_shape h).memFaulted hs ht, fun _ _ b _ h => State.writeByte_answers_of_readWord h b⟩

/-! ## The latch -/

theorem step_of_faulted {s : State} (hf : s.faulted = true) : step s = .fault .stuckUntilReset := by
  simp [step_eq, hf]

theorem step_answers_iff (s : State) : (∃ t, step s = .next t) ↔ s.faulted = false := by
  rcases step_cases s with ⟨hf, e⟩ | ⟨hf, _, e⟩ | ⟨hf, _, e⟩
  · simp [hf, e]
  · exact iff_of_true ⟨_, e⟩ hf
  · exact iff_of_true (e ▸ everyInstructionAnswersNext _ s) hf

theorem State.stepInto_of_faulted {s : State} (hf : s.faulted = true) : s.stepInto = .stopped s .faulted := by
  rw [State.stepInto, step_of_faulted hf]

theorem runLoop_of_faulted {s : State} (hf : s.faulted = true) {fuel : Nat} (hfuel : 0 < fuel) (target : Word)
    (cancel : Nat → Bool) (n : Nat) : runLoop target cancel fuel n s = .stopped s .faulted := by
  cases fuel with
  | zero => cases hfuel
  | succ fuel => rw [runLoop, step_of_faulted hf]

theorem State.runTo_of_faulted {s : State} (hf : s.faulted = true) (hmax : 0 < s.cfg.maxSteps) (target : Word)
    (cancel : Nat → Bool) : s.runTo target cancel = .stopped (s.setRunning false) .faulted := by
  have hstart : (s.setRunning true).faulted = true := hf
  rw [State.runTo, runLoop_of_faulted hstart hmax]
  rfl

theorem State.setBytes_sameButMemory (bs : List Byte) (s : State) (addr : Nat) : SameButMemory s (s.setBytes addr bs) := by
  induction bs generalizing s addr with
  | nil => rfl
  | cons b bs ih => exact ih (s.setByte addr b) (addr + 1)

theorem SameButMemory.faulted_eq {s t : State} (h : SameButMemory s t) : t.faulted = s.faulted := by
  unfold SameButMemory at h
  rw [h]

theorem State.copyBytes_faulted {s t : State} {addr length : Nat} {buffer : List Byte}
    (h : s.copyBytes addr buffer length = some t) : t.faulted = s.faulted := by
  obtain ⟨_, _, rfl⟩ := State.copyBytes_eq_some h
  exact (s.setBytes_sameButMemory (buffer.take length) addr).faulted_eq

/-- Settles O7: each clause is what the operation does with the latch. -/
theorem stepTakenExactlyWhenNotFaulted : Obligations.StepTakenExactlyWhenNotFaulted :=
  ⟨step_answers_iff, State.doReset_faulted,
    fun _ target cancel hf hmax => ⟨State.stepInto_of_faulted hf, State.runTo_of_faulted hf hmax target cancel⟩,
    fun _ _ _ _ _ => State.copyBytes_faulted⟩

end Sys2Proof.Machine

/-! PROOFS. The ALU family: the engine's sums and differences, its overflow flag, and the sixteen ALU instructions. -/

namespace Sys2Proof.Machine

/-! ## Sums, carries and borrows of the engine -/

section
variable (a b : Word) (ci : Bool)

@[simp] theorem AluOp.apply_add : AluOp.add.apply a b ci = addPrimitive a b false := rfl
@[simp] theorem AluOp.apply_sub : AluOp.sub.apply a b ci = subPrimitive a b false := rfl
@[simp] theorem AluOp.apply_adc : AluOp.adc.apply a b ci = addPrimitive a b ci := rfl
@[simp] theorem AluOp.apply_sbc : AluOp.sbc.apply a b ci = subPrimitive a b ci := rfl

theorem toNat_addPrimitive : (addPrimitive a b ci).1.toNat = (a.toNat + b.toNat + ci.toNat) % 2 ^ 16 := by
  obtain ⟨hr, _⟩ := addPrimitive_spec a b ci
  rw [hr, BitVec.toNat_ofNat]

theorem AluOp.apply_sub_spec : (AluOp.sub.apply a b ci).1 = BitVec.ofInt 16 (a.toNat - b.toNat) ∧
    (AluOp.sub.apply a b ci).2 = borrowOf a b false := by
  simpa using subPrimitive_spec a b false

theorem AluOp.apply_rsub_fst : (AluOp.rsub.apply a b ci).1 = BitVec.ofInt 16 (b.toNat - a.toNat) := by
  have := a.isLt
  apply BitVec.eq_of_toNat_eq
  show (b - a).toNat = _
  rw [BitVec.toNat_sub, BitVec.toNat_ofInt]
  omega

end

/-- Settles O11: ADC is the add primitive, its carry-out the comparison of R102, and ADD is the same with carry-in 0. -/
theorem addCarryIsExact : Obligations.AddCarryIsExact := by
  intro a b ci
  obtain ⟨_, hadc⟩ := addPrimitive_spec a b ci
  obtain ⟨_, hadd⟩ := addPrimitive_spec a b false
  rw [AluOp.apply_adc, AluOp.apply_add]
  exact ⟨toNat_addPrimitive a b ci, hadc, rfl, toNat_addPrimitive a b false, hadd, rfl⟩

/-- Settles O12: SBC is the subtraction of R103, and SUB is SBC with carry-in 0. -/
theorem subtractBorrowIsExact : Obligations.SubtractBorrowIsExact := by
  intro a b ci
  obtain ⟨hsbc, hborrow⟩ := subPrimitive_spec a b ci
  obtain ⟨hsub, hborrow'⟩ := AluOp.apply_sub_spec a b ci
  rw [AluOp.apply_sbc]
  exact ⟨hsbc, hborrow, hsub, hborrow'⟩

/-! ## The overflow flag -/

/-- V as the flag unit gives it after the engine. -/
def AluOp.overflowFlag (op : AluOp) (a b : Word) (ci : Bool) : Bool :=
  (flagUnit op a b (op.apply a b ci).1 (op.apply a b ci).2).v

section
variable (a b : Word) (ci : Bool)

theorem AluOp.overflowFlag_adc : AluOp.adc.overflowFlag a b ci = overflows (a.toInt + b.toInt + ci.toNat) :=
  addPrimitive_overflow a b ci

theorem AluOp.overflowFlag_add : AluOp.add.overflowFlag a b ci = overflows (a.toInt + b.toInt) := by
  refine (AluOp.overflowFlag_adc a b false).trans ?_
  rw [Bool.toNat_false, Nat.cast_zero, add_zero]

/-- The subtraction is the sum `a + ~b + !ci`, whose exact value is the exact difference. -/
theorem AluOp.overflowFlag_sbc : AluOp.sbc.overflowFlag a b ci = overflows (a.toInt - b.toInt - ci.toNat) := by
  have hsum : a.toInt + (~~~b).toInt + (!ci).toNat = a.toInt - b.toInt - ci.toNat := by
    rw [toInt_complement]
    cases ci <;> simp <;> omega
  rw [← hsum]
  exact addPrimitive_overflow a (~~~b) (!ci)

theorem AluOp.overflowFlag_sub : AluOp.sub.overflowFlag a b ci = overflows (a.toInt - b.toInt) := by
  refine (AluOp.overflowFlag_sbc a b false).trans ?_
  rw [Bool.toNat_false, Nat.cast_zero, sub_zero]

/-- Where the signs of the operands agree, the conjunction has that sign too. -/
theorem AluOp.overflowFlag_and : AluOp.and.overflowFlag a b ci = false := by
  refine (literalV_signs a b (a &&& b)).trans ?_
  rw [BitVec.msb_and]
  cases a.msb <;> cases b.msb <;> rfl

/-- Where the signs of the operands agree, the disjunction has that sign too. -/
theorem AluOp.overflowFlag_or : AluOp.or.overflowFlag a b ci = false := by
  refine (literalV_signs a b (a ||| b)).trans ?_
  rw [BitVec.msb_or]
  cases a.msb <;> cases b.msb <;> rfl

/-- An exclusive or has another sign than both operands exactly where both are negative. -/
theorem AluOp.overflowFlag_xor : AluOp.xor.overflowFlag a b ci = (a.getLsbD 15 && b.getLsbD 15) := by
  refine (literalV_signs a b (a ^^^ b)).trans ?_
  rw [BitVec.msb_xor, ← BitVec.msb_eq_getLsbD_last a, ← BitVec.msb_eq_getLsbD_last b]
  cases a.msb <;> cases b.msb <;> rfl

end

/-- Settles O13, by the literal V formula on the add primitive, through which all four operations go. -/
theorem overflowFlagIsSignedOverflow : Obligations.OverflowFlagIsSignedOverflow := fun a b ci =>
  ⟨AluOp.overflowFlag_adc a b ci, AluOp.overflowFlag_add a b ci, AluOp.overflowFlag_sbc a b ci,
    AluOp.overflowFlag_sub a b ci⟩

/-! ## The ALU step of each operation, for any second operand -/

section
variable (rx : Reg) (b : Word) (ci : Bool) (s : State)

/-- An ALU step, from the engine's result, carry and overflow flag. -/
theorem aluStep_writes_overflowFlag {op : AluOp} {r : Word} {c v : Bool} (hr : (op.apply (s.reg rx) b ci).1 = r)
    (hc : (op.apply (s.reg rx) b ci).2 = c) (hv : op.overflowFlag (s.reg rx) b ci = v) :
    ∃ t, aluStep op rx b ci s = .next t ∧ AluWrites s t rx r c v := by
  subst hr
  exact aluStep_writes rfl hc hv

theorem aluStep_adc_writes : ∃ t, aluStep .adc rx b ci s = .next t ∧
    AluWrites s t rx (BitVec.ofNat 16 ((s.reg rx).toNat + b.toNat + ci.toNat)) (carryOf (s.reg rx) b ci)
      (overflows ((s.reg rx).toInt + b.toInt + ci.toNat)) := by
  obtain ⟨hr, hc⟩ := addPrimitive_spec (s.reg rx) b ci
  exact aluStep_writes_overflowFlag rx b ci s hr hc (AluOp.overflowFlag_adc _ b ci)

/-- The carry-in is not read. -/
theorem aluStep_add_writes : ∃ t, aluStep .add rx b ci s = .next t ∧
    AluWrites s t rx (BitVec.ofNat 16 ((s.reg rx).toNat + b.toNat)) (carryOf (s.reg rx) b false)
      (overflows ((s.reg rx).toInt + b.toInt)) := by
  obtain ⟨hr, hc⟩ := addPrimitive_spec (s.reg rx) b false
  exact aluStep_writes_overflowFlag rx b ci s hr hc (AluOp.overflowFlag_add _ b ci)

theorem aluStep_sbc_writes : ∃ t, aluStep .sbc rx b ci s = .next t ∧
    AluWrites s t rx (BitVec.ofInt 16 ((s.reg rx).toNat - b.toNat - ci.toNat)) (borrowOf (s.reg rx) b ci)
      (overflows ((s.reg rx).toInt - b.toInt - ci.toNat)) := by
  obtain ⟨hr, hc⟩ := subPrimitive_spec (s.reg rx) b ci
  exact aluStep_writes_overflowFlag rx b ci s hr hc (AluOp.overflowFlag_sbc _ b ci)

/-- The carry-in is not read. -/
theorem aluStep_sub_writes : ∃ t, aluStep .sub rx b ci s = .next t ∧
    AluWrites s t rx (BitVec.ofInt 16 ((s.reg rx).toNat - b.toNat)) (borrowOf (s.reg rx) b false)
      (overflows ((s.reg rx).toInt - b.toInt)) := by
  obtain ⟨hr, hc⟩ := AluOp.apply_sub_spec (s.reg rx) b ci
  exact aluStep_writes_overflowFlag rx b ci s hr hc (AluOp.overflowFlag_sub _ b ci)

/-- The reverse subtraction keeps the carry-in as its carry, and its V is the literal formula (R104). -/
theorem aluStep_rsub_writes : ∃ t, aluStep .rsub rx b ci s = .next t ∧
    AluWrites s t rx (BitVec.ofInt 16 (b.toNat - (s.reg rx).toNat)) ci
      (literalV (s.reg rx) b (BitVec.ofInt 16 (b.toNat - (s.reg rx).toNat))) :=
  aluStep_writes (AluOp.apply_rsub_fst _ b ci) rfl rfl

theorem aluStep_and_writes : ∃ t, aluStep .and rx b ci s = .next t ∧ AluWrites s t rx (s.reg rx &&& b) ci false :=
  aluStep_writes_overflowFlag rx b ci s rfl rfl (AluOp.overflowFlag_and _ b ci)

theorem aluStep_or_writes : ∃ t, aluStep .or rx b ci s = .next t ∧ AluWrites s t rx (s.reg rx ||| b) ci false :=
  aluStep_writes_overflowFlag rx b ci s rfl rfl (AluOp.overflowFlag_or _ b ci)

theorem aluStep_xor_writes : ∃ t, aluStep .xor rx b ci s = .next t ∧
    AluWrites s t rx (s.reg rx ^^^ b) ci ((s.reg rx).getLsbD 15 && b.getLsbD 15) :=
  aluStep_writes_overflowFlag rx b ci s rfl rfl (AluOp.overflowFlag_xor _ b ci)

end

/-! ## The immediate forms -/

/-- Settles O14: ADDI is the ADD step on the prefixed immediate. -/
theorem addImmediateWritesSum : Obligations.AddImmediateWritesSum := by
  intro rx imm8 s
  dsimp only
  rw [exec_addi, immOperand_eq]
  exact aluStep_add_writes rx _ false s

/-- Settles O15: SUBI is the SUB step on the prefixed immediate. -/
theorem subtractImmediateWritesDifference : Obligations.SubtractImmediateWritesDifference := by
  intro rx imm8 s
  dsimp only
  rw [exec_subi, immOperand_eq]
  exact aluStep_sub_writes rx _ false s

/-- Settles O16: ADCI and SBCI are the ADC and SBC steps on the prefixed immediate, with C as carry-in. -/
theorem carryImmediateFormsUseCarry : Obligations.CarryImmediateFormsUseCarry := by
  intro rx imm8 s
  dsimp only
  rw [exec_adci, exec_sbci, immOperand_eq]
  exact ⟨aluStep_adc_writes rx _ s.ccr.c s, aluStep_sbc_writes rx _ s.ccr.c s⟩

/-- Settles O17: RSUBI is the RSUB step on the prefixed immediate, with C as carry-in. -/
theorem reverseSubtractImmediateKeepsCarry : Obligations.ReverseSubtractImmediateKeepsCarry := by
  intro rx imm8 s
  dsimp only
  rw [exec_rsubi, immOperand_eq]
  exact aluStep_rsub_writes rx _ s.ccr.c s

/-- Settles O18: the logical steps keep their carry-in, which the immediate forms clear. -/
theorem logicalImmediateFormsClearCarry : Obligations.LogicalImmediateFormsClearCarry := by
  intro rx imm8 s
  dsimp only
  rw [exec_andi, exec_ori, exec_xori, immOperand_eq]
  exact ⟨aluStep_and_writes rx _ false s, aluStep_or_writes rx _ false s, aluStep_xor_writes rx _ false s⟩

/-! ## The register forms -/

/-- Settles O19: the ADD and SUB steps whatever the carry-in. -/
theorem addSubRegisterIgnoreCarry : Obligations.AddSubRegisterIgnoreCarry := fun rx ry s =>
  ⟨aluStep_add_writes rx (s.reg ry) s.ccr.c s, aluStep_sub_writes rx (s.reg ry) s.ccr.c s⟩

/-- Settles O20: the ADC and SBC steps with C as carry-in. -/
theorem adcSbcRegisterUseCarry : Obligations.AdcSbcRegisterUseCarry := fun rx ry s =>
  ⟨aluStep_adc_writes rx (s.reg ry) s.ccr.c s, aluStep_sbc_writes rx (s.reg ry) s.ccr.c s⟩

/-- Settles O21: the RSUB step, which keeps its carry-in C. -/
theorem reverseSubtractRegisterKeepsCarry : Obligations.ReverseSubtractRegisterKeepsCarry := fun rx ry s =>
  aluStep_rsub_writes rx (s.reg ry) s.ccr.c s

/-- Settles O22: the logical steps, which keep their carry-in C. -/
theorem logicalRegisterFormsKeepCarry : Obligations.LogicalRegisterFormsKeepCarry := fun rx ry s =>
  ⟨aluStep_and_writes rx (s.reg ry) s.ccr.c s, aluStep_or_writes rx (s.reg ry) s.ccr.c s,
    aluStep_xor_writes rx (s.reg ry) s.ccr.c s⟩

end Sys2Proof.Machine

/-! PROOFS. The load, store and move family: MOVI, and the word and byte transfers in range and out of it. -/

namespace Sys2Proof.Machine

/-! ## Addresses of word and byte transfers -/

section
variable {s : State} {a : Word}

theorem evenAddr_of_odd (hodd : a.getLsbD 0 = true) : evenAddr a = a - 1#16 := by
  rw [getLsbD_zero_eq, decide_eq_true_iff] at hodd
  have heven := toNat_evenAddr a
  bv_omega

theorem State.wordError_of_even (heven : a.getLsbD 0 = false) :
    s.wordError a = decide (s.cfg.memBytes < a.toNat + 2) := by
  rw [State.wordError, heven, Bool.false_or]

/-- The word of a byte is in memory exactly where the byte is: the byte is the word's last one, or memory ends at a word. -/
theorem State.wordError_evenAddr (h : a.getLsbD 0 = true ∨ s.cfg.memBytes % 2 = 0) :
    s.wordError (evenAddr a) = decide (s.cfg.memBytes ≤ a.toNat) := by
  rw [getLsbD_zero_eq, decide_eq_true_iff] at h
  rw [Bool.eq_iff_iff, State.wordError_iff, toNat_evenAddr, decide_eq_true_iff]
  omega

/-! ## Reads -/

theorem State.wordAt_eq (s : State) (a : Word) :
    s.wordAt a = BitVec.ofNat 16 (256 * (s.byteAt a.toNat).toNat + (s.byteAt (a.toNat + 1)).toNat) := by
  rw [← toNat_wordOfBytes, BitVec.ofNat_toNat, BitVec.setWidth_eq, State.wordAt]

theorem State.readWordOrByte_of_even (heven : a.getLsbD 0 = false) : s.readWordOrByte a = s.readWord a := by
  rw [State.readWordOrByte, heven]
  rfl

theorem State.readWordOrByte_of_odd (hodd : a.getLsbD 0 = true) : s.readWordOrByte a = s.readByteZext a := by
  rw [State.readWordOrByte, hodd]
  rfl

theorem State.readByteZext_of_wordError_false (he : s.wordError (evenAddr a) = false) : s.readByteZext a =
    some (BitVec.ofNat 16 (s.byteAt a.toNat).toNat, memCost s.cfg.memCost .read (evenAddr a)) := by
  rw [State.readByteZext, State.readByte_eq_some_iff.mpr ⟨he, rfl, rfl⟩, BitVec.ofNat_toNat]

theorem State.readByteZext_of_wordError (he : s.wordError (evenAddr a) = true) : s.readByteZext a = none := by
  rw [State.readByteZext, State.readByte_eq_none_iff.mpr he]

/-! ## The byte transfers that LDW and LDB, and STW and STB, share -/

/-- A byte load in range zero-extends the byte, at the cost of one read of its word. -/
theorem loadStep_readByteZext_next (rx : Reg) (h : a.getLsbD 0 = true ∨ s.cfg.memBytes % 2 = 0)
    (hin : a.toNat < s.cfg.memBytes) :
    ∃ t, loadStep rx a (s.readByteZext a) s = .next t ∧
      OnlyRegWritten s t rx (BitVec.ofNat 16 (s.byteAt a.toNat).toNat) ∧ t.ccr = s.ccr ∧ SameMemory s t ∧
      Ends s t (s.pc + 2#16) 0x0000#16 (s.fetchCost + memCost s.cfg.memCost .read (evenAddr a)) none := by
  have he : s.wordError (evenAddr a) = false := (State.wordError_evenAddr h).trans (decide_eq_false (by omega))
  rw [State.readByteZext_of_wordError_false he]
  exact loadStep_next rx a _ _ s

theorem loadStep_readByteZext_fault (rx : Reg) (h : a.getLsbD 0 = true ∨ s.cfg.memBytes % 2 = 0)
    (hout : s.cfg.memBytes ≤ a.toNat) :
    ∃ t, loadStep rx a (s.readByteZext a) s = .next t ∧ MemFaulted s t .load a := by
  have he : s.wordError (evenAddr a) = true := (State.wordError_evenAddr h).trans (decide_eq_true hout)
  rw [State.readByteZext_of_wordError he]
  exact loadStep_fault rx a s

/-- A byte store in range writes the low byte only, at the cost of a read and a write of its word. -/
theorem storeStep_writeByte_next (hm : Memory.wf s.mem) (v : Word) (h : a.getLsbD 0 = true ∨ s.cfg.memBytes % 2 = 0)
    (hin : a.toNat < s.cfg.memBytes) :
    ∃ t, storeStep a (s.writeByte a (lowByte v)) s = .next t ∧ SameRegs s t ∧ t.ccr = s.ccr ∧
      (t.byteAt a.toNat).toNat = v.toNat % 256 ∧ SameMemoryOutside s t a.toNat 1 ∧
      Ends s t (s.pc + 2#16) 0x0000#16
        (s.fetchCost + (memCost s.cfg.memCost .read (evenAddr a) + memCost s.cfg.memCost .write (evenAddr a))) none := by
  have he : s.wordError (evenAddr a) = false := (State.wordError_evenAddr h).trans (decide_eq_false (by omega))
  rw [State.writeByte_eq_some_iff.mpr ⟨he, rfl, rfl⟩]
  obtain ⟨t, hnext, hregs, hccr, hbytes, hends⟩ := storeStep_next a (evenAddr a) _ _ s
  refine ⟨t, hnext, hregs, hccr, ?_, fun x hx => ?_, hends⟩
  · rw [hbytes, State.byteAt_mergedWrite hm, if_pos rfl, toNat_lowByte]
  · rw [hbytes, State.mergedWrite_sameMemoryOutside hm a _ x hx]

theorem storeStep_writeByte_fault (v : Word) (h : a.getLsbD 0 = true ∨ s.cfg.memBytes % 2 = 0)
    (hout : s.cfg.memBytes ≤ a.toNat) :
    ∃ t, storeStep a (s.writeByte a (lowByte v)) s = .next t ∧ MemFaulted s t .store a := by
  have he : s.wordError (evenAddr a) = true := (State.wordError_evenAddr h).trans (decide_eq_true hout)
  rw [State.writeByte_eq_none_iff.mpr he]
  exact storeStep_fault a s

/-! ## The word transfers of LDW and STW -/

/-- A word load in range, at an even address. -/
theorem loadStep_readWord_next (rx : Reg) (heven : a.getLsbD 0 = false) (hin : a.toNat + 2 ≤ s.cfg.memBytes) :
    ∃ t, loadStep rx a (s.readWord a) s = .next t ∧
      OnlyRegWritten s t rx (BitVec.ofNat 16 (256 * (s.byteAt a.toNat).toNat + (s.byteAt (a.toNat + 1)).toNat)) ∧
      t.ccr = s.ccr ∧ SameMemory s t ∧
      Ends s t (s.pc + 2#16) 0x0000#16 (s.fetchCost + memCost s.cfg.memCost .read a) none := by
  have he : s.wordError a = false := (State.wordError_of_even heven).trans (decide_eq_false (by omega))
  rw [State.readWord_eq_some_iff.mpr ⟨he, rfl, rfl⟩, State.wordAt_eq]
  exact loadStep_next rx a _ _ s

theorem loadStep_readWord_fault (rx : Reg) (heven : a.getLsbD 0 = false) (hout : s.cfg.memBytes < a.toNat + 2) :
    ∃ t, loadStep rx a (s.readWord a) s = .next t ∧ MemFaulted s t .load a := by
  have he : s.wordError a = true := (State.wordError_of_even heven).trans (decide_eq_true hout)
  rw [State.readWord_eq_none_iff.mpr he]
  exact loadStep_fault rx a s

/-- A word store in range, at an even address. -/
theorem storeStep_writeWord_next (hm : Memory.wf s.mem) (v : Word) (heven : a.getLsbD 0 = false)
    (hin : a.toNat + 2 ≤ s.cfg.memBytes) :
    ∃ t, storeStep a (s.writeWord a v) s = .next t ∧ SameRegs s t ∧ t.ccr = s.ccr ∧
      (t.byteAt a.toNat).toNat = v.toNat / 256 ∧ (t.byteAt (a.toNat + 1)).toNat = v.toNat % 256 ∧
      SameMemoryOutside s t a.toNat 2 ∧
      Ends s t (s.pc + 2#16) 0x0000#16 (s.fetchCost + memCost s.cfg.memCost .write a) none := by
  have he : s.wordError a = false := (State.wordError_of_even heven).trans (decide_eq_false (by omega))
  rw [State.writeWord_eq_some_iff.mpr ⟨he, rfl, rfl⟩]
  obtain ⟨t, hnext, hregs, hccr, hbytes, hends⟩ := storeStep_next a a v _ s
  refine ⟨t, hnext, hregs, hccr, ?_, ?_, fun x hx => ?_, hends⟩
  · rw [hbytes, State.byteAt_setWordAt hm, if_neg (by omega), if_pos rfl, toNat_highByte]
  · rw [hbytes, State.byteAt_setWordAt hm, if_pos rfl, toNat_lowByte]
  · rw [hbytes, State.setWordAt_sameMemoryOutside hm a v x hx]

theorem storeStep_writeWord_fault (v : Word) (heven : a.getLsbD 0 = false) (hout : s.cfg.memBytes < a.toNat + 2) :
    ∃ t, storeStep a (s.writeWord a v) s = .next t ∧ MemFaulted s t .store a := by
  have he : s.wordError a = true := (State.wordError_of_even heven).trans (decide_eq_true hout)
  rw [State.writeWord_eq_none_iff.mpr he]
  exact storeStep_fault a s

end

/-! ## The instructions -/

/-- Settles O23: MOVI retires after a write of one register and of C. -/
theorem moveImmediateClearsOnlyCarry : Obligations.MoveImmediateClearsOnlyCarry := by
  intro rx imm8 s
  rw [exec_movi, immOperand_eq]
  refine ⟨_, rfl, s.onlyRegWritten_setReg rx _, rfl, fun _ => rfl, ?_⟩
  exact State.retire_ends_of rfl s.npc 0x0000#16 0 false none (s.stepCost_untaken 0)

/-- Settles O25: a word load at an even address and a byte load at an odd one. -/
theorem loadWordFallsBackToByte : Obligations.LoadWordFallsBackToByte := by
  intro rx ry off4 s
  dsimp only
  rw [exec_ldw]
  refine ⟨fun heven hin => ?_, fun hodd hin => ?_, fun heven hout => ?_, fun hodd hout => ?_⟩
  · rw [State.readWordOrByte_of_even heven]
    exact loadStep_readWord_next rx heven hin
  · rw [State.readWordOrByte_of_odd hodd, ← evenAddr_of_odd hodd]
    exact loadStep_readByteZext_next rx (.inl hodd) hin
  · rw [State.readWordOrByte_of_even heven]
    exact loadStep_readWord_fault rx heven hout
  · rw [State.readWordOrByte_of_odd hodd]
    exact loadStep_readByteZext_fault rx (.inl hodd) hout

/-- Settles O26: a word store at an even address and a byte store at an odd one. -/
theorem storeWordFallsBackToByte : Obligations.StoreWordFallsBackToByte := by
  intro rx ry off4 s hm
  dsimp only
  rw [exec_stw]
  refine ⟨fun heven hin => ?_, fun hodd hin => ?_, fun heven hout => ?_, fun hodd hout => ?_⟩
  · rw [State.writeWordOrByte_of_even heven]
    exact storeStep_writeWord_next hm (s.reg rx) heven hin
  · rw [State.writeWordOrByte_of_odd hodd, ← evenAddr_of_odd hodd]
    exact storeStep_writeByte_next hm (s.reg rx) (.inl hodd) hin
  · rw [State.writeWordOrByte_of_even heven]
    exact storeStep_writeWord_fault (s.reg rx) heven hout
  · rw [State.writeWordOrByte_of_odd hodd]
    exact storeStep_writeByte_fault (s.reg rx) (.inl hodd) hout

/-- Settles O27: the byte load at any address, since memory ends at a word. -/
theorem loadByteZeroExtends : Obligations.LoadByteZeroExtends := by
  intro rx ry off4 s ⟨_, _, hevenBytes, _⟩
  dsimp only
  rw [exec_ldb, ← evenAddr_eq]
  exact ⟨loadStep_readByteZext_next rx (.inr hevenBytes), loadStep_readByteZext_fault rx (.inr hevenBytes)⟩

/-- Settles O28: the byte store at any address, since memory ends at a word. -/
theorem storeByteKeepsOtherBytes : Obligations.StoreByteKeepsOtherBytes := by
  intro rx ry off4 s ⟨_, _, hevenBytes, _⟩ hm
  dsimp only
  rw [exec_stb, ← evenAddr_eq]
  exact ⟨storeStep_writeByte_next hm (s.reg rx) (.inr hevenBytes), storeStep_writeByte_fault (s.reg rx) (.inr hevenBytes)⟩

end Sys2Proof.Machine

/-! PROOFS. The branch family: the conditional branches, what the conditions say after SUB, RTS and JAL. -/

namespace Sys2Proof.Machine

/-! ## The branches with a displacement -/

/-- Settles O35: the conditions 0 and 1 are constant. -/
theorem unconditionalBranches : Obligations.UnconditionalBranches := fun d s =>
  ⟨branchRelative_next .always d s, branchRelative_next .never d s⟩

/-- Settles O36: the branch step on each condition of R166 to R171. -/
theorem unsignedAndEqualityBranches : Obligations.UnsignedAndEqualityBranches := fun d s =>
  ⟨branchRelative_next .higher d s, branchRelative_next .lowerOrSame d s, branchRelative_next .higherOrSame d s,
    branchRelative_next .lower d s, branchRelative_next .equal d s, branchRelative_next .notEqual d s⟩

/-- Settles O37: the branch step on each condition of R172 to R175. -/
theorem signedBranches : Obligations.SignedBranches := fun d s =>
  ⟨branchRelative_next .greaterThan d s, branchRelative_next .lessOrEqual d s,
    branchRelative_next .greaterOrEqual d s, branchRelative_next .lessThan d s⟩

/-! ## Seven conditions by way of the other three -/

section
variable (f : Flags)

theorem Cond.taken_lowerOrSame : Cond.lowerOrSame.taken f = (Cond.lower.taken f || Cond.equal.taken f) := rfl
theorem Cond.taken_lessOrEqual : Cond.lessOrEqual.taken f = (Cond.equal.taken f || Cond.lessThan.taken f) := rfl
theorem Cond.taken_higher : Cond.higher.taken f = !Cond.lowerOrSame.taken f := (Bool.not_or f.c f.z).symm
theorem Cond.taken_higherOrSame : Cond.higherOrSame.taken f = !Cond.lower.taken f := rfl
theorem Cond.taken_notEqual : Cond.notEqual.taken f = !Cond.equal.taken f := rfl
theorem Cond.taken_greaterThan : Cond.greaterThan.taken f = !Cond.lessOrEqual.taken f :=
  (Bool.not_or f.z (f.n ^^ f.v)).symm
theorem Cond.taken_greaterOrEqual : Cond.greaterOrEqual.taken f = !Cond.lessThan.taken f := rfl

end

/-! ## The flags of a difference -/

section
variable (a b : Word)

theorem ofInt_toNat_sub_toNat : BitVec.ofInt 16 (a.toNat - b.toNat) = a - b := by
  apply BitVec.eq_of_toNat_eq
  have := b.isLt
  rw [BitVec.toNat_sub, BitVec.toNat_ofInt]
  omega

theorem toNat_sub_eq_zero_iff : (a - b).toNat = 0 ↔ a = b := by
  rw [← sub_eq_zero (a := a), BitVec.toNat_eq]
  rfl

/-- Overflow is where the sign of the wrapped number is not the sign of the number. -/
theorem bmod_neg_xor_overflows {x : Int} (hlo : -65536 ≤ x) (hhi : x < 65536) :
    (decide (x.bmod (2 ^ 16) < 0) ^^ overflows x) = decide (x < 0) := by
  rw [Bool.eq_iff_iff]
  simp only [overflows, Bool.xor_iff_ne, ne_eq, decide_eq_decide, Int.bmod, decide_eq_true_eq]
  omega

/-- N xor V of a difference says which operand is the lesser, signed. -/
theorem sub_neg_xor_overflows :
    (decide ((a - b).toInt < 0) ^^ overflows (a.toInt - b.toInt)) = decide (a.toInt < b.toInt) := by
  have ha := a.toInt_lt
  have hb := b.toInt_lt
  have ha' := a.le_toInt
  have hb' := b.le_toInt
  rw [BitVec.toInt_sub, bmod_neg_xor_overflows (by omega) (by omega), decide_eq_decide]
  omega

end

/-- C, Z and N xor V after SUB. -/
theorem exec_sub_taken {rx ry : Reg} {s t : State} (h : exec (.sub rx ry) s = .next t) :
    Cond.lower.taken t.ccr = decide ((s.reg rx).toNat < (s.reg ry).toNat) ∧
      Cond.equal.taken t.ccr = decide (s.reg rx = s.reg ry) ∧
      Cond.lessThan.taken t.ccr = decide ((s.reg rx).toInt < (s.reg ry).toInt) := by
  obtain ⟨t', ht', -, hccr, -⟩ := aluStep_sub_writes rx (s.reg ry) s.ccr.c s
  obtain rfl : t' = t := Host.Outcome.next.inj (ht'.symm.trans h)
  rw [hccr, ofInt_toNat_sub_toNat]
  exact ⟨rfl, decide_eq_decide.mpr (toNat_sub_eq_zero_iff _ _), sub_neg_xor_overflows _ _⟩

/-- Settles O38: C, Z and N xor V give three of the conditions, which give the other seven. -/
theorem conditionsCompareAfterSubtract : Obligations.ConditionsCompareAfterSubtract := by
  intro rx ry s t h
  dsimp only
  obtain ⟨hlower, hequal, hless⟩ := exec_sub_taken h
  have hlowerOrSame : Cond.lowerOrSame.taken t.ccr = decide ((s.reg rx).toNat ≤ (s.reg ry).toNat) := by
    rw [Cond.taken_lowerOrSame, hlower, hequal, ← Bool.decide_or, decide_eq_decide, BitVec.toNat_eq]
    exact Nat.le_iff_lt_or_eq.symm
  have hlessOrEqual : Cond.lessOrEqual.taken t.ccr = decide ((s.reg rx).toInt ≤ (s.reg ry).toInt) := by
    rw [Cond.taken_lessOrEqual, hequal, hless, ← Bool.decide_or, decide_eq_decide, ← BitVec.toInt_inj, or_comm]
    exact Int.le_iff_lt_or_eq.symm
  rw [Cond.taken_higher, Cond.taken_higherOrSame, Cond.taken_notEqual, Cond.taken_greaterThan, Cond.taken_greaterOrEqual,
    hlower, hequal, hless, hlowerOrSame, hlessOrEqual]
  simp only [← decide_not, not_le, not_lt, ne_eq, and_self]

/-! ## Return and call -/

/-- Settles O39: RTS is always taken, and its meaning does not read the low byte. -/
theorem returnGoesToEvenLink : Obligations.ReturnGoesToEvenLink := by
  intro ignored s
  obtain ⟨t, ht, hbranches⟩ := branchStep_next .returnFromSubroutine (returnTarget (s.reg linkReg)) s
  rw [returnTarget_eq] at hbranches
  exact ⟨t, ht, hbranches, fun _ => ht⟩

theorem jalOffset_eq (mode : JalPrefixMode) (p : Word) (d : BitVec 8) :
    jalOffset mode p d = if mode = .consume ∧ p ≠ 0x0000#16 then immOperand p d else d.signExtend 16 := by
  cases mode with
  | consume => by_cases hp : p = 0x0000#16 <;> simp [jalOffset, hp]
  | ignore => simp [jalOffset]

theorem State.jalTarget_eq (s : State) (d : BitVec 8) :
    s.jalTarget d = if s.cfg.jalPrefixMode = .consume ∧ s.immPrefix ≠ 0x0000#16
      then displacedTarget s.pc (256 * s.immPrefix.toNat + d.toNat) else displacedTarget s.pc d.toInt := by
  unfold State.jalTarget
  rw [jalOffset_eq]
  split
  · refine wordTarget_eq s.pc _ ?_
    rw [immOperand_eq, prefixedImmediate, BitVec.toNat_ofNat]
    omega
  · exact branchTarget_eq s.pc d

/-- Settles O40: JAL writes the link and retires as a taken branch, at the target of R178. -/
theorem jumpAndLinkUsesPrefixInConsumeMode : Obligations.JumpAndLinkUsesPrefixInConsumeMode := by
  intro d s
  dsimp only
  rw [← State.jalTarget_eq]
  refine ⟨_, exec_jal s d, s.onlyRegWritten_setReg linkReg s.npc, rfl, fun _ => rfl, ?_⟩
  exact State.retire_ends_of rfl _ 0x0000#16 0 true none (s.stepCost_taken 0)

end Sys2Proof.Machine

/-! PROOFS. The prefix family: IMM, and a chain of IMM words before an instruction that reads the wide immediate. -/

namespace Sys2Proof.Machine

/-! ## One IMM -/

/-- Settles O41: IMM is the end of an untaken step in the state from before it, with the accumulated prefix. -/
theorem immAccumulatesPrefix : Obligations.ImmAccumulatesPrefix := by
  intro p s
  rw [exec_imm, accumulatePrefix_eq]
  refine ⟨_, rfl, fun _ => rfl, rfl, fun _ => rfl, ?_⟩
  exact State.retire_ends_of rfl s.npc _ 0 false none (s.stepCost_untaken 0)

/-! ## Truncating an operand as well as the result changes nothing (R77) -/

theorem ofNat_mul_toNat_ofNat_add (k n m : Nat) :
    BitVec.ofNat 16 (k * (BitVec.ofNat 16 n).toNat + m) = BitVec.ofNat 16 (k * n + m) := by
  rw [BitVec.ofNat_add, BitVec.ofNat_mul, BitVec.ofNat_toNat, BitVec.setWidth_eq, ← BitVec.ofNat_mul, ← BitVec.ofNat_add]

theorem ofNat_add_toNat_ofNat (k n : Nat) : BitVec.ofNat 16 (k + (BitVec.ofNat 16 n).toNat) = BitVec.ofNat 16 (k + n) := by
  rw [BitVec.ofNat_add, BitVec.ofNat_toNat, BitVec.setWidth_eq, ← BitVec.ofNat_add]

theorem prefixedImmediate_ofNat (n : Nat) (m : BitVec 8) :
    prefixedImmediate (BitVec.ofNat 16 n) m = BitVec.ofNat 16 (256 * n + m.toNat) :=
  ofNat_mul_toNat_ofNat_add 256 n m.toNat

/-! ## A chain of IMM words -/

/-- The prefix after the chunks, never truncated, from the prefix `n`. -/
def widePrefix (n : Nat) (chunks : List (BitVec 12)) : Nat := chunks.foldl (fun acc p => 4096 * acc + p.toNat) n

theorem widePrefix_cons (n : Nat) (p : BitVec 12) (chunks : List (BitVec 12)) :
    widePrefix n (p :: chunks) = widePrefix (4096 * n + p.toNat) chunks := rfl

theorem execAll_cons_of_next {i : Instr} {s t : State} (h : exec i s = .next t) (is : List Instr) :
    execAll (i :: is) s = execAll is t := by
  rw [execAll, h]

/-- A chain of IMM words leaves the registers and the truncated wide prefix to the instructions after it. -/
theorem execAll_imms_append (chunks : List (BitVec 12)) (is : List Instr) {n : Nat} {s : State}
    (hp : s.immPrefix = BitVec.ofNat 16 n) :
    ∃ u, execAll (chunks.map Instr.imm ++ is) s = execAll is u ∧ SameRegs s u ∧
      u.immPrefix = BitVec.ofNat 16 (widePrefix n chunks) := by
  induction chunks generalizing n s with
  | nil => exact ⟨s, rfl, fun _ => rfl, hp⟩
  | cons p chunks ih =>
    obtain ⟨t, ht, hregs, -, -, -, htp, -⟩ := immAccumulatesPrefix p s
    rw [hp, ofNat_mul_toNat_ofNat_add] at htp
    obtain ⟨u, hu, hregs', hup⟩ := ih htp
    rw [← widePrefix_cons] at hup
    exact ⟨u, (execAll_cons_of_next ht _).trans hu, fun q => (hregs' q).trans (hregs q), hup⟩

/-- Settles O42: MOVI and ADDI read the truncated wide prefix that the chain leaves, and clear it. -/
theorem prefixChainBuildsWideImmediate : Obligations.PrefixChainBuildsWideImmediate := by
  intro chunks rx m s hs
  constructor
  · obtain ⟨u, hu, -, hup⟩ := execAll_imms_append chunks [.movi rx m] hs
    obtain ⟨t, ht, ⟨hreg, -⟩, -, -, -, htp, -⟩ := moveImmediateClearsOnlyCarry rx m u
    rw [hup, prefixedImmediate_ofNat] at hreg
    exact ⟨t, hu.trans (execAll_cons_of_next ht []), hreg, htp⟩
  · obtain ⟨u, hu, hregs, hup⟩ := execAll_imms_append chunks [.addi rx m] hs
    obtain ⟨t, ht, ⟨hreg, -⟩, -, -, -, htp, -⟩ := addImmediateWritesSum rx m u
    rw [hup, prefixedImmediate_ofNat, hregs rx, ofNat_add_toNat_ofNat] at hreg
    exact ⟨t, hu.trans (execAll_cons_of_next ht []), hreg, htp⟩

end Sys2Proof.Machine

/-! PROOFS. The disassembler family: the placeholder and the signal of a reserved encoding, and the printed target of a branch. -/

namespace Sys2Proof

/-- The two encodings that have no meaning (R128, R176). -/
def Instr.isReserved : Instr → Bool
  | .reservedAlu _ _ _ | .reservedBranch _ _ => true
  | _ => false

end Sys2Proof

namespace Sys2Proof.Machine

/-! ## The signal of a reserved encoding (R90) -/

theorem loadStep_illegal {rx : Reg} {ea : Word} {read : Option (Word × Nat)} {s t : State}
    (h : loadStep rx ea read s = .next t) : t.out.illegal = none := by
  rcases loadStep_cases rx ea read s with ⟨v, cd, _, e⟩ | ⟨_, e⟩ <;> rw [e] at h <;> cases h <;> rfl

theorem storeStep_illegal {ea : Word} {write : Option (State × Nat)} {s t : State}
    (h : storeStep ea write s = .next t) : t.out.illegal = none := by
  rcases storeStep_cases ea write s with ⟨s', cd, _, e⟩ | ⟨_, e⟩ <;> rw [e] at h <;> cases h <;> rfl

/-- Of all instructions only the reserved encodings signal, with the pc and the word. -/
theorem exec_illegal {i : Instr} {s t : State} (h : exec i s = .next t) :
    t.out.illegal = if i.isReserved then some { addr := s.pc, word := encode i } else none := by
  cases i with
  | add | sub | adc | sbc | rsub | and | or | xor => cases h; rfl
  | addi | subi | adci | sbci | rsubi | andi | ori | xori | movi => cases h; rfl
  | ldw | ldb => exact loadStep_illegal h
  | stw | stb => exact storeStep_illegal h
  | bra | brn | bhi | bls | bhs | blo | beq | bne | bgt | ble | bge | blt | rts | jal => cases h; rfl
  | imm | reservedAlu | reservedBranch => cases h; rfl

/-! ## The placeholder (R210): no mnemonic starts with its letter -/

/-- An entry of a table, or the default beyond its end, has what all entries and the default have. -/
theorem getD_of_forall_mem {α : Type} {p : α → Prop} {l : List α} {d : α} (hl : ∀ x ∈ l, p x) (hd : p d) (k : Nat) :
    p (l.getD k d) := by
  rw [List.getD_eq_getElem?_getD]
  cases h : l[k]? with
  | none => exact hd
  | some x => exact hl x (List.mem_of_getElem? h)

theorem romText_aluRom_head_ne_D (k : Nat) : (romText aluRom k).head? ≠ some 'D' :=
  getD_of_forall_mem (p := fun name : String => name.toList.head? ≠ some 'D') (by decide) (by decide) k

theorem romText_loadStoreRom_head_ne_D (k : Nat) : (romText loadStoreRom k).head? ≠ some 'D' :=
  getD_of_forall_mem (p := fun name : String => name.toList.head? ≠ some 'D') (by decide) (by decide) k

theorem condText_head_ne_D (k : Nat) : (condText k).head? ≠ some 'D' :=
  getD_of_forall_mem (p := fun entry : Option String => (entry.getD "").toList.head? ≠ some 'D') (by decide)
    (by decide) k

/-- A text that goes on with a space after its mnemonic. -/
theorem head_append_space_ne_D {m : List Char} (h : m.head? ≠ some 'D') (r : List Char) :
    (m ++ ([' '] ++ r)).head? ≠ some 'D' := by
  cases m with
  | nil => exact (by decide : some ' ' ≠ some 'D')
  | cons c m => exact h

theorem textAluRegister_head_ne_D (op : Nat) (rx ry : Reg) : (textAluRegister op rx ry).head? ≠ some 'D' := by
  simp only [textAluRegister, List.append_assoc]
  exact head_append_space_ne_D (romText_aluRom_head_ne_D op) _

theorem textRegisterImmediate_head_ne_D {m : List Char} (h : m.head? ≠ some 'D') (rx : Reg) (imm8 : BitVec 8) :
    (textRegisterImmediate m rx imm8).head? ≠ some 'D' := by
  simp only [textRegisterImmediate, List.append_assoc]
  exact head_append_space_ne_D h _

theorem textLoadStore_head_ne_D (k : Nat) (rx ry : Reg) (offset : BitVec 8) :
    (textLoadStore k rx ry offset).head? ≠ some 'D' := by
  simp only [textLoadStore, List.append_assoc]
  exact head_append_space_ne_D (romText_loadStoreRom_head_ne_D k) _

theorem textBranch_head_ne_D (cond : Nat) (addr : Word) (d : BitVec 8) : (textBranch cond addr d).head? ≠ some 'D' := by
  simp only [textBranch, List.append_assoc]
  exact head_append_space_ne_D (condText_head_ne_D cond) _

theorem instrText_head_ne_D {i : Instr} (h : i.isReserved = false) (addr : Word) :
    (instrText addr i).head? ≠ some 'D' := by
  cases i with
  | add | sub | adc | sbc | rsub | and | or | xor => exact textAluRegister_head_ne_D _ _ _
  | addi | subi | adci | sbci | rsubi | andi | ori | xori =>
    exact textRegisterImmediate_head_ne_D (romText_aluRom_head_ne_D _) _ _
  | movi => exact textRegisterImmediate_head_ne_D (by decide) _ _
  | ldw | stw | ldb | stb => exact textLoadStore_head_ne_D _ _ _ _
  | bra | brn | bhi | bls | bhs | blo | beq | bne | bgt | ble | bge | blt | jal => exact textBranch_head_ne_D _ _ _
  | rts => exact condText_head_ne_D 14
  | imm => exact (by decide : some 'I' ≠ some 'D')
  | reservedAlu | reservedBranch => cases h

theorem instrText_of_isReserved {i : Instr} (h : i.isReserved = true) (addr : Word) :
    instrText addr i = textPlaceholder (encode i) := by
  cases i with
  | reservedAlu | reservedBranch => rfl
  | _ => cases h

/-- The text starts as the placeholder exactly for a reserved encoding. -/
theorem instrText_take_three_iff (addr : Word) (i : Instr) :
    (instrText addr i).take 3 = ['D', 'W', ' '] ↔ i.isReserved = true := by
  constructor
  · intro htake
    by_contra h
    refine instrText_head_ne_D (Bool.eq_false_of_not_eq_true h) addr ?_
    simpa [List.head?_take] using congrArg List.head? htake
  · intro h
    rw [instrText_of_isReserved h]
    rfl

/-- Settles O54: a word prints as the placeholder, and signals, exactly where it decodes to a reserved encoding. -/
theorem placeholderExactlyForIllegal : Obligations.PlaceholderExactlyForIllegal := by
  intro addr w s t h
  have hsignal : t.out.illegal.isSome = true ↔ (decodeWord w).isReserved = true := by
    rw [exec_illegal h]
    split <;> simp_all
  rw [hsignal]
  refine ⟨instrText_take_three_iff addr _, fun hr => ?_⟩
  rw [disassembleChars, instrText_of_isReserved hr, encode_decodeWord, textPlaceholder]

/-! ## The printed target (R207) -/

theorem decodeWord_of_branch_class {w : Word} (h : fieldCls w = 0xE#4) :
    decodeWord w = decodeBranch (fieldCond w) (fieldImm8 w) := by
  rw [decodeWord, h]
  rfl

/-- A step that costs as a taken branch goes to the target: an untaken one costs 2 less. -/
theorem branchStep_pc_of_taken_cost {cond : Cond} {target : Word} {s t : State} (h : branchStep cond target s = .next t)
    (hcost : t.out.cost = some (s.fetchCost + 2)) : t.pc = target := by
  obtain ⟨t', ht', -, -, -, hpc, -, -, hout, -⟩ := branchStep_next cond target s
  obtain rfl : t' = t := Host.Outcome.next.inj (ht'.symm.trans h)
  rw [hout] at hcost
  cases htaken : cond.taken s.ccr <;> simp_all

/-- The selectors 0 to B are branches to the displaced target, and print it. -/
theorem decodeBranch_of_le_eleven {cond : BitVec 4} (h : cond.toNat ≤ 11) (d : BitVec 8) :
    (∃ c, ∀ s, exec (decodeBranch cond d) s = branchStep c (branchTarget s.npc d) s) ∧
      ∀ addr, instrText addr (decodeBranch cond d) = textBranch cond.toNat addr d := by
  unfold decodeBranch
  split
  case h_13 | h_14 => omega
  case h_15 => simp only [imp_false] at *; omega
  all_goals next hc => exact ⟨⟨_, fun _ => rfl⟩, fun addr => congrArg (textBranch · addr d) hc.symm⟩

theorem State.jalTarget_of_prefix_zero {s : State} (hp : s.immPrefix = 0x0000#16) (d : BitVec 8) :
    s.jalTarget d = branchTarget s.npc d := by
  rw [State.jalTarget, jalOffset_eq, hp, if_neg (by simp), branchTarget]

/-- Settles O55: the text and the step compute the target from the same displacement, JAL where the prefix adds nothing. -/
theorem printedTargetIsExecutedTarget : Obligations.PrintedTargetIsExecutedTarget := by
  intro w s t hcls h
  rw [disassembleChars]
  rw [decodeWord_of_branch_class hcls] at h ⊢
  constructor
  · intro hcond hcost
    obtain ⟨⟨c, hexec⟩, htext⟩ := decodeBranch_of_le_eleven hcond (fieldImm8 w)
    rw [htext, branchStep_pc_of_taken_cost ((hexec s).symm.trans h) hcost, textBranch, State.npc]
  · intro hcond hp
    have hjal : decodeBranch (fieldCond w) (fieldImm8 w) = .jal (fieldImm8 w) := by rw [hcond]; rfl
    rw [hjal, exec_jal] at h
    cases h
    rw [hjal, State.retire_pc, State.jalTarget_of_prefix_zero hp]
    rfl

end Sys2Proof.Machine

/-! PROOFS. The exception and controller family: the faults of an instruction, the signal of a reserved encoding, and how a step
request ends. -/

namespace Sys2Proof.Machine

/-! ## Which steps set the latch, and with what -/

theorem aluStep_faulted {op : AluOp} {rx : Reg} {b : Word} {ci : Bool} {s t : State}
    (h : aluStep op rx b ci s = .next t) : t.faulted = s.faulted := by
  cases h
  rfl

theorem branchStep_faulted {cond : Cond} {target : Word} {s t : State} (h : branchStep cond target s = .next t) :
    t.faulted = s.faulted := by
  cases h
  rfl

theorem loadStep_memFaulted {rx : Reg} {ea : Word} {read : Option (Word × Nat)} {s t : State}
    (h : loadStep rx ea read s = .next t) (hset : t.faulted ≠ s.faulted) : MemFaulted s t .load ea := by
  rcases loadStep_cases rx ea read s with ⟨v, cd, _, e⟩ | ⟨_, e⟩ <;> rw [e] at h <;> cases h
  · exact absurd rfl hset
  · exact s.raiseMemFault_memFaulted .load ea

theorem storeStep_memFaulted {ea : Word} {write : Option (State × Nat)} {s t : State}
    (hw : ∀ r, write = some r → ∃ a w, s.wordError a = false ∧ r.1 = s.setWordAt a w)
    (h : storeStep ea write s = .next t) (hset : t.faulted ≠ s.faulted) : MemFaulted s t .store ea := by
  rcases storeStep_cases ea write s with ⟨s', cd, hs, e⟩ | ⟨_, e⟩ <;> rw [e] at h <;> cases h
  · obtain ⟨a, w, _, rfl⟩ := hw _ hs
    exact absurd rfl hset
  · exact s.raiseMemFault_memFaulted .store ea

/-- Settles O9: only the shared load and store steps set the latch, and each raises its own fault at the address it is given. -/
theorem faultNamesFailingAccess : Obligations.FaultNamesFailingAccess := by
  intro s t i hs h ht
  have hset : t.faulted ≠ s.faulted := by rw [hs, ht]; decide
  cases i with
  | ldw rx ry o => exact .inl ⟨rx, ry, o, rfl, loadStep_memFaulted h hset⟩
  | ldb rx ry o => exact .inr (.inl ⟨rx, ry, o, rfl, loadStep_memFaulted h hset⟩)
  | stw rx ry o =>
    exact .inr (.inr (.inl ⟨rx, ry, o, rfl, storeStep_memFaulted (fun _ => State.writeWordOrByte_some) h hset⟩))
  | stb rx ry o =>
    exact .inr (.inr (.inr ⟨rx, ry, o, rfl, storeStep_memFaulted (fun _ => State.writeByte_some) h hset⟩))
  | add | sub | adc | sbc | rsub | and | or | xor => exact absurd (aluStep_faulted h) hset
  | addi | subi | adci | sbci | rsubi | andi | ori | xori => exact absurd (aluStep_faulted h) hset
  | bra | brn | bhi | bls | bhs | blo | beq | bne | bgt | ble | bge | blt | rts =>
    exact absurd (branchStep_faulted h) hset
  | movi | jal | imm | reservedAlu | reservedBranch => cases h; exact absurd rfl hset

/-! ## Reserved encodings -/

theorem encode_reservedAlu_eq_ofNat (rx ry : Reg) (func : BitVec 4) :
    encode (.reservedAlu rx ry func) = BitVec.ofNat 16 (256 * rx.val + 16 * ry.val + func.toNat) := by
  have h : (encode (.reservedAlu rx ry func)).toNat = 256 * rx.val + 16 * ry.val + func.toNat :=
    (toNat_packRRN 0x0#4 rx ry func).trans (by simp)
  rw [← h, BitVec.ofNat_toNat, BitVec.setWidth_eq]

theorem encode_reservedBranch_eq_ofNat (cond : BitVec 4) (d : BitVec 8) :
    encode (.reservedBranch cond d) = BitVec.ofNat 16 (0xE000 + 256 * cond.toNat + d.toNat) := by
  have h : (encode (.reservedBranch cond d)).toNat = 0xE000 + 256 * cond.toNat + d.toNat := toNat_packB cond d
  rw [← h, BitVec.ofNat_toNat, BitVec.setWidth_eq]

/-- Settles O10: both rows take the illegal step, with the encoding's own word as a number. -/
theorem reservedEncodingsSignalIllegal : Obligations.ReservedEncodingsSignalIllegal := by
  constructor
  · intro rx ry func s _
    rw [exec_reservedAlu, encode_reservedAlu_eq_ofNat]
    exact ⟨_, rfl, s.illegalStep_spec _⟩
  · intro cond d s _
    rw [exec_reservedBranch, encode_reservedBranch_eq_ofNat]
    exact ⟨_, rfl, s.illegalStep_spec _⟩

/-! ## Step-Into and Step-Out -/

/-- A step leaves the controller's values as they were. -/
theorem step_next_withController_self {s t : State} (h : step s = .next t) :
    t.withController s.breakpoint s.running s.cfg.haltOnIllegal s.cfg.maxSteps = t := by
  have hstep := stepIgnoresController s s.breakpoint s.running s.cfg.haltOnIllegal s.cfg.maxSteps
  rw [h] at hstep
  exact Host.Outcome.next.inj (hstep.symm.trans h)

/-- A breakpoint set before the step is there after it, and nothing else differs. -/
theorem step_setBreakpoint {s t : State} (h : step s = .next t) (bp : Option Word) :
    step (s.setBreakpoint bp) = .next (t.setBreakpoint bp) := by
  have hstep := stepIgnoresController s bp s.running s.cfg.haltOnIllegal s.cfg.maxSteps
  rw [h] at hstep
  rw [← step_next_withController_self h]
  exact hstep

theorem State.stepInto_of_step {s t : State} (h : step s = .next t) :
    s.stepInto = .stopped t (if t.faulted then .faulted else .stepped) := by
  rw [State.stepInto, h]

/-- Settles O57: the step does not see the breakpoint, and the return target is the link register with bit 0 cleared. -/
theorem stepIntoAndStepOut : Obligations.StepIntoAndStepOut := by
  constructor
  · intro s t bp h
    exact ⟨_, State.stepInto_of_step (step_setBreakpoint h bp)⟩
  · intro s cancel
    rw [← returnTarget_eq]
    rfl

/-! ## Step-Over -/

/-- From `t` on stand `n` IMM words and then a word that is none, all of which can be read. -/
def State.HasPrefixChain (s : State) (t : Word) (n : Nat) : Prop :=
  ∀ k : Nat, k ≤ n → ∃ w c, s.readWord (t + BitVec.ofNat 16 (2 * k)) = some (w, c) ∧ (fieldCls w = 0xF#4 ↔ k < n)

theorem add_ofNat_two_mul_succ (t : Word) (k : Nat) :
    t + BitVec.ofNat 16 (2 * (k + 1)) = t + 2#16 + BitVec.ofNat 16 (2 * k) := by
  rw [Nat.mul_succ, Nat.add_comm, BitVec.ofNat_add, BitVec.add_assoc]

theorem State.HasPrefixChain.head {s : State} {t : Word} {n : Nat} (h : s.HasPrefixChain t n) :
    ∃ w c, s.readWord t = some (w, c) ∧ (fieldCls w = 0xF#4 ↔ 0 < n) := by
  simpa using h 0 n.zero_le

theorem State.HasPrefixChain.tail {s : State} {t : Word} {n : Nat} (h : s.HasPrefixChain t (n + 1)) :
    s.HasPrefixChain (t + 2#16) n := by
  intro k hk
  rw [← add_ofNat_two_mul_succ]
  simpa using h (k + 1) (by omega)

/-- The walk goes over the chain to the word after it. -/
theorem State.HasPrefixChain.walkChain {s : State} {t : Word} {n fuel : Nat} (h : s.HasPrefixChain t n)
    (hfuel : n < fuel) : s.walkChain fuel t = .consumer (t + BitVec.ofNat 16 (2 * n)) := by
  induction fuel generalizing t n with
  | zero => omega
  | succ fuel ih =>
    obtain ⟨w, c, hread, hcls⟩ := h.head
    rw [State.walkChain, hread]
    cases n with
    | zero => simp [hcls]
    | succ n =>
      rw [add_ofNat_two_mul_succ, ← ih h.tail (by omega)]
      simp [hcls]

/-- Settles O58: the walk ends at the first word that is no IMM, and the target is the address after it. -/
theorem stepOverSkipsPrefixChain : Obligations.StepOverSkipsPrefixChain := by
  intro s n hn h
  have hchain : s.HasPrefixChain s.pc n := h
  rw [State.stepOverTarget, hchain.walkChain hn, BitVec.ofNat_add, ← BitVec.add_assoc]

/-! ## Runs -/

section
variable {target : Word} {cancel : Nat → Bool} {fuel n : Nat} {s t : State}

theorem runLoop_of_stopAfter_some {why : StopReason} (h : step s = .next t) (hstop : t.stopAfter target = some why) :
    runLoop target cancel (fuel + 1) n s = .stopped t why := by
  rw [runLoop, h]
  simp only [hstop]

theorem runLoop_of_stopAfter_none (h : step s = .next t) (hgo : t.stopAfter target = none) :
    runLoop target cancel (fuel + 1) n s =
      if fuel = 0 then .stopped t .bound
      else if cancel n then .stopped t .cancelled
      else runLoop target cancel fuel (n + 1) t := by
  rw [runLoop, h]
  simp only [hgo]

end

/-- From `s`, which stands after `n` steps of a run, the `k`-th step leads to `u` and is the first that gives a reason to stop,
and the reason is `why`. -/
def StopsFirstAt (target : Word) (maxSteps : Nat) (cancel : Nat → Bool) (n : Nat) (s : State) (k : Nat) (u : State)
    (why : StopReason) : Prop :=
  stepTimes k s = .next u ∧
    (∀ (j : Nat) (v : State), 1 ≤ j → j < k → stepTimes j s = .next v → ¬ v.MustStop target ∧ cancel (n + j - 1) = false) ∧
    u.StopsBecause target maxSteps cancel (n + k) why

section
variable {target : Word} {maxSteps : Nat} {cancel : Nat → Bool} {n : Nat} {s t : State}

theorem StopsFirstAt.one {why : StopReason} (h : step s = .next t)
    (hwhy : t.StopsBecause target maxSteps cancel (n + 1) why) : StopsFirstAt target maxSteps cancel n s 1 t why :=
  ⟨stepTimes_succ h 0, fun j _ hj hj' => by omega, hwhy⟩

theorem StopsFirstAt.succ {k : Nat} {u : State} {why : StopReason} (h : step s = .next t) (hgo : ¬ t.MustStop target)
    (hcancel : cancel n = false) (hrest : StopsFirstAt target maxSteps cancel (n + 1) t k u why) :
    StopsFirstAt target maxSteps cancel n s (k + 1) u why := by
  obtain ⟨hsteps, hbefore, hwhy⟩ := hrest
  refine ⟨(stepTimes_succ h k).trans hsteps, fun j v hj hjk hv => ?_, by rwa [Nat.add_right_comm] at hwhy⟩
  obtain ⟨j, rfl⟩ := Nat.exists_eq_add_of_le' hj
  rw [stepTimes_succ h] at hv
  rcases j.eq_zero_or_pos with rfl | hpos
  · cases hv
    exact ⟨hgo, hcancel⟩
  · rw [← Nat.add_assoc, Nat.add_right_comm]
    exact hbefore j v hpos (by omega) hv

/-- The loop with `n` steps behind it and `fuel` steps left stops at the first step that gives a reason. -/
theorem runLoop_stopsFirstAt {fuel : Nat} (hf : s.faulted = false) (hfuel : 0 < fuel) (hmax : n + fuel = maxSteps) :
    ∃ k u why, runLoop target cancel fuel n s = .stopped u why ∧ 1 ≤ k ∧ k ≤ fuel ∧
      StopsFirstAt target maxSteps cancel n s k u why := by
  induction fuel generalizing n s with
  | zero => omega
  | succ fuel ih =>
    obtain ⟨t, h⟩ := (step_answers_iff s).mpr hf
    rcases t.stopAfter_cases target maxSteps cancel (n + 1) with ⟨why, hstop, hwhy⟩ | ⟨hnone, hgo⟩
    · exact ⟨1, t, why, runLoop_of_stopAfter_some h hstop, le_rfl, by omega, .one h hwhy⟩
    · rw [runLoop_of_stopAfter_none h hnone]
      split
      · next hzero => exact ⟨1, t, .bound, rfl, le_rfl, by omega, .one h ⟨hgo, by omega⟩⟩
      · split
        · next hcancel => exact ⟨1, t, .cancelled, rfl, le_rfl, by omega, .one h ⟨hgo, by omega, hcancel⟩⟩
        · next hpos hcancel =>
          have hft : t.faulted = false := Bool.eq_false_iff.mpr fun e => hgo (.inl e)
          obtain ⟨k, u, why, hrun, hk, hk', hrest⟩ := ih (n := n + 1) hft (by omega) (by omega)
          exact ⟨k + 1, u, why, hrun, by omega, by omega, hrest.succ h hgo (Bool.eq_false_iff.mpr hcancel)⟩

end

/-- Settles O59, by the loop from its start, with no step behind it and all of `MAX_STEPS` left. -/
theorem runStopsForItsReason : Obligations.RunStopsForItsReason := by
  intro s target cancel hf hmax
  have hstart : (s.setRunning true).faulted = false := hf
  obtain ⟨k, u, why, hrun, hk, hk', hsteps, hbefore, hwhy⟩ :=
    runLoop_stopsFirstAt (target := target) (cancel := cancel) hstart hmax (Nat.zero_add _)
  rw [Nat.zero_add] at hwhy
  refine ⟨k, u, why, ?_, hk, hk', hsteps, fun j v hj hjk hv => ?_, hwhy⟩
  · rw [State.runTo, hrun]
    rfl
  · simpa using hbefore j v hj hjk hv

end Sys2Proof.Machine

/-! PROOFS. The cost family: what each shared step returns where every word access costs the same (R86, R269). -/

namespace Sys2Proof.Machine

/-- The step from `s` to `t` returns `cost` and adds it to the counter (R86). -/
def ReturnsCost (s t : State) (cost : Nat) : Prop :=
  t.out.cost = some cost ∧ t.cycles = addCycles s.cycles cost

theorem Ends.returnsCost {s t : State} {pc' p' : Word} {cost : Nat} {ill : Option IllegalSignal}
    (h : Ends s t pc' p' cost ill) : ReturnsCost s t cost := by
  obtain ⟨-, -, hcycles, hout, -⟩ := h
  exact ⟨by rw [hout], hcycles⟩

theorem SameButMemory.eq_with_regs_ccr_mem {s u : State} (h : SameButMemory s u) :
    u = { s with regs := u.regs, ccr := u.ccr, mem := u.mem } := by
  unfold SameButMemory at h
  rw [h]

section
variable {s t : State} {c : Nat} (hc : s.cfg.memCost = { base := c, table := [] })
include hc

/-! ## Accesses -/

theorem memCost_uniform (kind : AccessKind) (a : Word) : memCost s.cfg.memCost kind a = c := by
  rw [hc]
  rfl

theorem State.fetchCost_uniform : s.fetchCost = c := memCost_uniform hc .read s.pc

theorem State.readByteZext_uniform {ea v : Word} {cd : Nat} (h : s.readByteZext ea = some (v, cd)) : cd = c := by
  rcases s.readByteZext_cases ea with ⟨_, e⟩ | ⟨_, e⟩ <;> rw [e] at h <;> cases h
  exact memCost_uniform hc .read _

/-- A load of either width is one word read. -/
theorem State.readWordOrByte_uniform {ea v : Word} {cd : Nat} (h : s.readWordOrByte ea = some (v, cd)) : cd = c := by
  cases hodd : ea.getLsbD 0
  · rw [State.readWordOrByte_of_even hodd] at h
    obtain ⟨_, _, rfl⟩ := State.readWord_eq_some_iff.mp h
    exact memCost_uniform hc .read ea
  · rw [State.readWordOrByte_of_odd hodd] at h
    exact State.readByteZext_uniform hc h

/-- A byte write reads its word and writes it. -/
theorem State.writeByte_uniform {ea : Word} {b : Byte} {s' : State} {cd : Nat} (h : s.writeByte ea b = some (s', cd)) :
    SameButMemory s s' ∧ c + cd = 3 * c := by
  obtain ⟨_, rfl, rfl⟩ := State.writeByte_eq_some_iff.mp h
  rw [memCost_uniform hc, memCost_uniform hc]
  exact ⟨s.setWordAt_sameButMemory _ _, by omega⟩

theorem State.writeWordOrByte_uniform {ea v : Word} {s' : State} {cd : Nat}
    (h : s.writeWordOrByte ea v = some (s', cd)) :
    SameButMemory s s' ∧ c + cd = if ea.getLsbD 0 then 3 * c else 2 * c := by
  cases hodd : ea.getLsbD 0
  · rw [State.writeWordOrByte_of_even hodd] at h
    obtain ⟨_, rfl, rfl⟩ := State.writeWord_eq_some_iff.mp h
    rw [memCost_uniform hc]
    exact ⟨s.setWordAt_sameButMemory ea v, (two_mul c).symm⟩
  · rw [State.writeWordOrByte_of_odd hodd] at h
    exact State.writeByte_uniform hc h

/-! ## The shared steps -/

theorem retire_untaken_returnsCost {u : State} (hu : u = { s with regs := u.regs, ccr := u.ccr, mem := u.mem })
    (pc' p' : Word) (cd : Nat) (ill : Option IllegalSignal) :
    ReturnsCost s (u.retire pc' p' cd false ill) (c + cd) := by
  refine (State.retire_ends_of hu pc' p' cd false ill ?_).returnsCost
  rw [s.stepCost_untaken, State.fetchCost_uniform hc]

theorem retire_taken_returnsCost {u : State} (hu : u = { s with regs := u.regs, ccr := u.ccr, mem := u.mem })
    (pc' p' : Word) (ill : Option IllegalSignal) : ReturnsCost s (u.retire pc' p' 0 true ill) (c + 2) := by
  refine (State.retire_ends_of hu pc' p' 0 true ill ?_).returnsCost
  rw [s.stepCost_taken, State.fetchCost_uniform hc, Nat.add_zero]

theorem aluStep_returnsCost {op : AluOp} {rx : Reg} {b : Word} {ci : Bool} (h : aluStep op rx b ci s = .next t) :
    ReturnsCost s t c := by
  cases h
  exact retire_untaken_returnsCost hc rfl _ _ 0 _

theorem branchStep_returnsCost {cond : Cond} {target : Word} (h : branchStep cond target s = .next t) :
    ReturnsCost s t (if cond.taken s.ccr then c + 2 else c) := by
  cases h
  cases cond.taken s.ccr
  · exact retire_untaken_returnsCost hc rfl _ _ 0 _
  · exact retire_taken_returnsCost hc rfl _ _ _

theorem loadStep_returnsCost {rx : Reg} {ea : Word} {read : Option (Word × Nat)}
    (hread : ∀ v cd, read = some (v, cd) → cd = c) (h : loadStep rx ea read s = .next t) (ht : t.faulted = false) :
    ReturnsCost s t (2 * c) := by
  rcases loadStep_cases rx ea read s with ⟨v, cd, hv, e⟩ | ⟨_, e⟩ <;> rw [e] at h <;> cases h
  · rw [hread v cd hv, two_mul]
    exact retire_untaken_returnsCost hc rfl _ _ c _
  · simp at ht

theorem storeStep_returnsCost {ea : Word} {write : Option (State × Nat)} {cost : Nat}
    (hwrite : ∀ s' cd, write = some (s', cd) → SameButMemory s s' ∧ c + cd = cost)
    (h : storeStep ea write s = .next t) (ht : t.faulted = false) : ReturnsCost s t cost := by
  rcases storeStep_cases ea write s with ⟨s', cd, hs, e⟩ | ⟨_, e⟩ <;> rw [e] at h <;> cases h
  · obtain ⟨hsame, rfl⟩ := hwrite s' cd hs
    exact retire_untaken_returnsCost hc hsame.eq_with_regs_ccr_mem _ _ cd _
  · simp at ht

/-! ## The table -/

/-- Every instruction that raises no fault returns its row of R269. -/
theorem exec_returnsCost {i : Instr} (h : exec i s = .next t) (ht : t.faulted = false) :
    ReturnsCost s t (s.tableCost c i) := by
  cases i with
  | add | sub | adc | sbc | rsub | and | or | xor => exact aluStep_returnsCost hc h
  | addi | subi | adci | sbci | rsubi | andi | ori | xori => exact aluStep_returnsCost hc h
  | ldw => exact loadStep_returnsCost hc (fun _ _ => State.readWordOrByte_uniform hc) h ht
  | ldb => exact loadStep_returnsCost hc (fun _ _ => State.readByteZext_uniform hc) h ht
  | stw => exact storeStep_returnsCost hc (fun _ _ => State.writeWordOrByte_uniform hc) h ht
  | stb => exact storeStep_returnsCost hc (fun _ _ => State.writeByte_uniform hc) h ht
  | bra | brn | bhi | bls | bhs | blo | beq | bne | bgt | ble | bge | blt | rts => exact branchStep_returnsCost hc h
  | jal => cases h; exact retire_taken_returnsCost hc rfl _ _ _
  | movi | imm | reservedAlu | reservedBranch => cases h; exact retire_untaken_returnsCost hc rfl _ _ 0 _

end

/-- Settles O47, by the cost of each shared step; a step that raises no fault is one that retires, so the latch before it does
not matter. -/
theorem costsMatchTable : Obligations.CostsMatchTable :=
  fun _ _ _ _ hc _ h ht => exec_returnsCost hc h ht

end Sys2Proof.Machine
